-- ==== Sys2Proof/Word.lean ====
section
/-! DEFINITION. The widths of the block's values (spec/00_scope.md R9, spec/10_state.md R20, spec/30_encoding.md R60).
Every quantity is unsigned (R10); nothing here but the width types. -/

namespace Sys2Proof

/-- A symbol, a byte of RawBytes, an output byte (R9 `SYM_W`, `OUT_W`). -/
abbrev Byte := BitVec 8

/-- `prev`, `idx`, `hold`, `lastq`, `key`, `value`, `mixed`, `divisor`, `quotient` (R9 `HALF_W`). -/
abbrev Word32 := BitVec 32

/-- A Window's Word, a command payload, `pos`, `err_pos`, a status register (R9 `WORD_W`, `POS_W`). -/
abbrev Word64 := BitVec 64

/-- One word of the command channel: `op` in bits 65:64, `payload` in bits 63:0 (R60, R9 `CMD_W`). -/
abbrev CmdWord := BitVec 66

end Sys2Proof
end

