-- ==== Sys2Proof/Syntax.lean ====
section
/-! DEFINITION. The instructions: the four commands of the opcode map (spec/30_encoding.md R61), one constructor for
each row of spec/opcode_table.json. The ignored payload bits (R69 (b)) are no operand: they carry no meaning. -/

namespace Sys2Proof

/-- A command of the block, as spec/30_encoding.md R61 lists them. -/
inductive Instr where
  /-- `INIT` (R62, R120): start a new message; no operand. -/
  | init
  /-- `GRP` (R63, R85): the five symbols of one group, `s0` the lowest text position. Every byte is a legal operand. -/
  | grp (s0 s1 s2 s3 s4 : Byte)
  /-- `WIN` (R67, R105): the Word of one Window, `value` in bits 31:0 and `key` in bits 63:32. -/
  | win (word : Word64)
  /-- `END` (R68, R121): `ntail`, the number of symbols after the last whole group; 5 to 7 are encodable. -/
  | endMsg (ntail : BitVec 3)
  deriving DecidableEq, Repr

end Sys2Proof
end

