-- ==== Sys2Proof/Decode.lean ====
section
/-! DEFINITION. The command decoder and the encoder (spec/30_encoding.md R60 to R63, R67 to R70). -/

namespace Sys2Proof

/-- Why a bit pattern is no command word. There is one reason: it does not fit the 66-bit port (R60). -/
inductive DecodeReject where
  /-- A number of 2^66 or more: it has a set bit above bit 65, and no command word has one (R60, R70). Safe: no
  step meets it, since the command channel carries `CmdWord`s. -/
  | widerThanPort
  deriving DecidableEq, Repr

/-- Bits 65:64 of a command word (R60). -/
def opField (w : CmdWord) : BitVec 2 := w.extractLsb' 64 2

/-- Bits 63:0 of a command word (R60). -/
def payloadField (w : CmdWord) : Word64 := w.extractLsb' 0 64

/-- Symbol `k` of a `GRP` payload: bits `8k+7:8k` (R63). -/
def symbolField (w : CmdWord) (k : Nat) : Byte := w.extractLsb' (8 * k) 8

/-- Bits 2:0 of an `END` payload (R68). -/
def ntailField (w : CmdWord) : BitVec 3 := w.extractLsb' 0 3

/-- The decoder, total on any 66 bits (R61): all four values of `op` are assigned. The ignored payload bits are not
read (R69 (b)). -/
def decode (w : CmdWord) : Instr :=
  if opField w = 0#2 then .init
  else if opField w = 1#2 then
    .grp (symbolField w 0) (symbolField w 1) (symbolField w 2) (symbolField w 3) (symbolField w 4)
  else if opField w = 2#2 then .win (payloadField w)
  else .endMsg (ntailField w)

/-- The decoder on any number, bit 0 the least significant bit of the word: a number too wide for the port is
rejected by name, every other one is a command. -/
def decodeNat (n : Nat) : Except DecodeReject Instr :=
  if n < 2 ^ 66 then .ok (decode (BitVec.ofNat 66 n)) else .error .widerThanPort

/-- A command word from its two fields (R60). -/
def cmdWord (op : BitVec 2) (payload : Word64) : CmdWord := op ++ payload

/-- The encoder: the word of a command, ignored payload bits 0 (R74 "Ignored payload bits assemble as 0"). -/
def encode : Instr → CmdWord
  | .init => cmdWord 0#2 0#64
  | .grp s0 s1 s2 s3 s4 => cmdWord 1#2 (0#24 ++ s4 ++ s3 ++ s2 ++ s1 ++ s0)
  | .win word => cmdWord 2#2 word
  | .endMsg ntail => cmdWord 3#2 (0#61 ++ ntail)

/-- The payload bits a command ignores (R69 (b)): `INIT` 63:0, `GRP` 63:40, `WIN` none, `END` 63:3. -/
def ignoredBits : Instr → CmdWord
  | .init => 0x0FFFFFFFFFFFFFFFF#66
  | .grp _ _ _ _ _ => 0x0FFFFFF0000000000#66
  | .win _ => 0#66
  | .endMsg _ => 0x0FFFFFFFFFFFFFFF8#66

/-- The instruction the decoder reads from an opcode-table word of `nbits` bits: a command is one 66-bit word, so the
word is the number itself. -/
def decodeTableWord (nbits w : Nat) : Option Instr :=
  (decodeNat (w % 2 ^ nbits)).toOption

end Sys2Proof
end

