-- ==== Sys2Proof/Config.lean ====
section
/-! DEFINITION. The implementation parameters of spec/00_scope.md R9 that are plain numbers. The block has no
configuration surface (R28) and the spec leaves no value free (R108), so every one of them is a constant. The widths
are the types of Sys2Proof/Word.lean; the alphabet and the two byte orders are functions of Machine/Operands.lean. -/

namespace Sys2Proof.Config

/-- R9 `RADIX`: the alphabet has 85 symbols. -/
abbrev radix : Nat := 85

/-- R9 `GROUP_SYMS`: symbols in one group. -/
abbrev groupSyms : Nat := 5

/-- R9 `GROUP_BYTES`: bytes one group decodes to. -/
abbrev groupBytes : Nat := 4

/-- R9 `WINDOW_BYTES`: bytes in one Window. -/
abbrev windowBytes : Nat := 8

/-- R9 `PREV_INIT`: `previous_output` at the start of a message. -/
abbrev prevInit : Word32 := 1#32

/-- R9 `IDX_INIT`: the index of the first Window of a message. -/
abbrev idxInit : Word32 := 0#32

/-- The largest group value that passes the overflow check of R82, 2^32 - 1. -/
abbrev maxGroupValue : Nat := 4294967295

end Sys2Proof.Config
end

