-- ==== Sys2Proof/Machine/State.lean ====
section
/-! DEFINITION. The machine's state: the ten fields of spec/10_state.md R20, the output record of R35, and the command
channel with the reset input (spec/30_encoding.md R75). Plain data throughout. -/

namespace Sys2Proof.Machine

/-- The error kinds of spec/30_encoding.md R72, one for each value of the 3-bit field `err`. -/
inductive ErrKind where
  /-- Code 0: no error. -/
  | none
  /-- Code 1: the text length is not a multiple of 5. -/
  | invalidLength
  /-- Code 2: a symbol outside the alphabet. -/
  | invalidByte
  /-- Code 3: a group of valid symbols whose value exceeds 2^32 - 1. -/
  | invalidChunk
  /-- Code 4: reserved; no command raises it (R88). -/
  | invalidTail
  /-- Code 5: a Window met a divisor of 0. -/
  | divisionByZero
  /-- Code 6: `END` with `ntail` 5 to 7. -/
  | illegalCommand
  /-- Code 7: reserved; no command raises it. -/
  | reserved
  deriving DecidableEq, Repr

/-- The complete architectural state of the block: the ten fields of R20 and no other. -/
structure Block where
  /-- `previous_output`, zero-extended (R21). -/
  prev : Word32
  /-- The 0-based position of the next Window (R22). -/
  idx : Word32
  /-- The bytes of the group that waits for its partner (R23). -/
  hold : Word32
  /-- `hold_v`: `hold` holds a group (R23). -/
  holdV : Bool
  /-- Symbols consumed so far, modulo 2^64 (R24). -/
  pos : Word64
  /-- The message is closed (R25). -/
  done : Bool
  /-- The latched error kind (R26). -/
  err : ErrKind
  /-- `err_pos`: the position or index that goes with `err` (R26). -/
  errPos : Word64
  /-- `err_byte`: the byte that goes with `err` (R26). -/
  errByte : Byte
  /-- The quotient of the last successful transform step (R27). -/
  lastq : Word32
  deriving DecidableEq, Repr

/-- The reset column of R20, which is the table of spec/70_reset_and_hazards.md R175. -/
def Block.reset : Block :=
  { prev := Config.prevInit, idx := Config.idxInit, hold := 0#32, holdV := false, pos := 0#64, done := false,
    err := .none, errPos := 0#64, errByte := 0#8, lastq := 0#32 }

/-- What the host can drive into the block (R75): a command word on the command channel, or the reset input. -/
inductive Input where
  /-- A command word that the host offers on `cmd` (R75). -/
  | cmd (w : CmdWord)
  /-- The host asserts `rst` (R176). -/
  | rst
  deriving DecidableEq, Repr

/-- The block with its two channels: "A model replaces the two channels by a list of commands in and a list of bytes
out" (R75). -/
structure State extends Block where
  /-- The bytes emitted since the last `INIT` or reset, in emission order (R35). -/
  out : List Byte
  /-- What the host has yet to be served, the next one first. The model's own field: R34 makes the host's script no
  state of the block. -/
  input : List Input
  deriving DecidableEq, Repr

/-- The machine right after reset (R175), with nothing offered by the host. -/
def State.reset : State :=
  { Block.reset with out := [], input := [] }

/-- Reasons to stop with a fault. There is none: every command completes in every state (R184), and every error of the
message is a latched value of `err` (R153). Safe: no step answers a fault. -/
inductive Fault where
  deriving DecidableEq, Repr

/-- Reasons to give an instruction no meaning. -/
inductive Refusal where
  /-- Raised by an arm of `exec` whose instruction has no meaning yet; no arm of this model raises it. Safe. -/
  | notModelled (mnemonic : String)
  deriving DecidableEq, Repr

end Sys2Proof.Machine
end

