-- ==== Sys2Proof/Machine/Flags.lean ====
section
/-! DEFINITION. The visible conditions (spec/10_state.md R30), the codes and ranks of the error kinds (spec/30_encoding.md
R72, spec/60_exceptions.md R152), and the status registers (R31, R32). -/

namespace Sys2Proof.Machine

/-- R72: the 3-bit code of an error kind, as `SR[0][6:4]` shows it. -/
def ErrKind.code : ErrKind → BitVec 3
  | .none => 0#3
  | .invalidLength => 1#3
  | .invalidByte => 2#3
  | .invalidChunk => 3#3
  | .invalidTail => 4#3
  | .divisionByZero => 5#3
  | .illegalCommand => 6#3
  | .reserved => 7#3

/-- R152: the rank of a kind. The two kinds that are never raised have none. -/
def ErrKind.rank : ErrKind → Option Nat
  | .none => some 0
  | .divisionByZero => some 1
  | .invalidByte => some 2
  | .invalidChunk => some 2
  | .invalidLength => some 3
  | .illegalCommand => some 4
  | .invalidTail => Option.none
  | .reserved => Option.none

/-- R85: an earlier decode error, the kinds over which `GRP` latches nothing. -/
def ErrKind.isDecodeError (k : ErrKind) : Bool := decide (k = .invalidByte ∨ k = .invalidChunk)

/-- R30: `fault` is not a stored bit but the value of `err != 0`. -/
def Block.fault (b : Block) : Bool := decide (b.err ≠ .none)

/-- R32: the output `done_o` carries `SR[0][0]`. -/
def Block.doneO (b : Block) : Bool := b.done

/-- R32: the output `fault_o` carries `SR[0][1]`. -/
def Block.faultO (b : Block) : Bool := b.fault

/-- R31 `STATUS`: from bit 63 down, 48 zeros, `ERRBYTE`, 0, `ERR`, 0, `HOLDV`, `FAULT`, `DONE`. -/
def Block.status (b : Block) : Word64 :=
  0#48 ++ b.errByte ++ 0#1 ++ b.err.code ++ 0#1 ++ BitVec.ofBool b.holdV ++ BitVec.ofBool b.fault ++
    BitVec.ofBool b.done

/-- R31, R32: the status register read `SR[i]`, a function of the state and of the select alone (`sr_data` for
`sr_sel = i`, R75). -/
def Block.statusReg (b : Block) (i : BitVec 3) : Word64 :=
  if i = 0#3 then b.status
  else if i = 1#3 then b.errPos
  else if i = 2#3 then b.pos
  else if i = 3#3 then b.idx.setWidth 64
  else if i = 4#3 then b.prev.setWidth 64
  else if i = 5#3 then b.hold.setWidth 64
  else if i = 6#3 then b.lastq.setWidth 64
  else 0#64

end Sys2Proof.Machine
end

