-- ==== Sys2Proof/Machine/Operands.lean ====
section
/-! DEFINITION. The data encodings: the alphabet and its digits (spec/30_encoding.md R64, R65), the group value (R66),
the packing of a group and of a Window (spec/20_memory.md R42 to R45), the fields of a Word (R71). -/

namespace Sys2Proof.Machine

/-- `count` consecutive codes from `first` on. -/
def codeRun (first count : Nat) : List Byte :=
  (List.range count).map fun k => BitVec.ofNat 8 (first + k)

/-- The 23 punctuation marks of R64, in value order from 62 to 84. -/
def punctuation : List Byte :=
  [0x2E#8, 0x2D#8, 0x3A#8, 0x2B#8, 0x3D#8, 0x5E#8, 0x21#8, 0x2F#8, 0x2A#8, 0x3F#8, 0x26#8, 0x3C#8] ++
  [0x3E#8, 0x28#8, 0x29#8, 0x5B#8, 0x5D#8, 0x7B#8, 0x7D#8, 0x40#8, 0x25#8, 0x24#8, 0x23#8]

/-- The alphabet of R64 in value order: "digits `0` to `9` are 0 to 9; lower-case `a` to `z` are 10 to 35; upper-case
`A` to `Z` are 36 to 61", then the punctuation. UNVERIFIED in 76 of its 85 places (log entry 2). -/
def alphabet : List Byte :=
  codeRun 0x30 10 ++ codeRun 0x61 26 ++ codeRun 0x41 26 ++ punctuation

/-- `digit(code)` of R65: the base-85 value of a valid code, nothing for an invalid one. -/
def digit? (code : Byte) : Option Nat := alphabet.idxOf? code

/-- R65: a symbol is valid when its code is one of the 85 codes of the alphabet. -/
def validSymbol (code : Byte) : Bool := (digit? code).isSome

/-- R66, R42: the value of five digits, the first symbol's the most significant. Not reduced: up to 85^5 - 1. -/
def groupValue (d0 d1 d2 d3 d4 : Nat) : Nat :=
  d0 * Config.radix ^ 4 + d1 * Config.radix ^ 3 + d2 * Config.radix ^ 2 + d3 * Config.radix + d4

/-- R43: byte `j` (0 to 3) of a group's RawBytes, the most significant byte of the 32-bit group value first. -/
def groupByte (v : Word32) (j : Nat) : Byte := v.extractLsb' (24 - 8 * j) 8

/-- R23, R85: four RawBytes packed for `hold`, byte `j` in bits `8j+7:8j` (`d <- b3 : b2 : b1 : b0`). -/
def packGroup (b0 b1 b2 b3 : Byte) : Word32 := b3 ++ b2 ++ b1 ++ b0

/-- R71: the Word of two packed groups, the first in the low half (`w <- d : hold`). -/
def joinGroups (first second : Word32) : Word64 := second ++ first

/-- R44: the Word of a Window's eight bytes, the byte of lowest index in bits 7:0. -/
def windowWord (b0 b1 b2 b3 b4 b5 b6 b7 : Byte) : Word64 := b7 ++ b6 ++ b5 ++ b4 ++ b3 ++ b2 ++ b1 ++ b0

/-- R71: `key = word[63:32]`. -/
def keyOf (word : Word64) : Word32 := word.extractLsb' 32 32

/-- R71: `value = word[31:0]`. -/
def valueOf (word : Word64) : Word32 := word.extractLsb' 0 32

/-- R45 `bswap32(v) = v[7:0] : v[15:8] : v[23:16] : v[31:24]`. -/
def bswap32 (v : Word32) : Word32 :=
  v.extractLsb' 0 8 ++ v.extractLsb' 8 8 ++ v.extractLsb' 16 8 ++ v.extractLsb' 24 8

/-- The carried byte widened to the width of `prev` (R21 "widened to unsigned 32-bit"). -/
def widenByte (b : Byte) : Word32 := b.setWidth 32

end Sys2Proof.Machine
end

