-- ==== Sys2Proof/Machine/Ops.lean ====
section
/-! DEFINITION. The shared operations over the state: latching an error and clearing it (spec/00_scope.md R11,
spec/60_exceptions.md R153, R154), emitting a byte (R11), the symbol counter (R24), the Window assembler (R23), and
taking the host's next input (spec/30_encoding.md R75). -/

namespace Sys2Proof.Machine

/-- `raise K(p, b)` of R11: latch kind `k` with position `p` and byte `b`, and nothing else (R153). The block's one
form of taking an exception: there is no handler, no vector and no saved program counter. -/
def State.raise (s : State) (k : ErrKind) (p : Word64) (b : Byte) : State :=
  { s with err := k, errPos := p, errByte := b }

/-- The block at its reset values and the output record empty (R120, R175). The only return from an error: "Only
`INIT` and reset clear an error" (R154). What the host has yet to send stays with the host. -/
def State.restart (s : State) : State :=
  { s with toBlock := Block.reset, out := [] }

/-- `emit(b)` of R11: append one byte to the output stream. -/
def State.emit (s : State) (b : Byte) : State :=
  { s with out := s.out ++ [b] }

/-- R24: count the five symbols of one group, modulo 2^64. -/
def State.countGroup (s : State) : State :=
  { s with pos := s.pos + BitVec.ofNat 64 Config.groupSyms }

/-- R85: the first group of a pair waits in `hold`. -/
def State.holdGroup (s : State) (d : Word32) : State :=
  { s with hold := d, holdV := true }

/-- R23: clearing `hold_v` also clears `hold`. -/
def State.dropHold (s : State) : State :=
  { s with hold := 0#32, holdV := false }

/-- R121: the message is closed. -/
def State.close (s : State) : State :=
  { s with done := true }

/-- The host's next input and the state without it; nothing when the host offers nothing (R75, R186). -/
def State.takeInput (s : State) : Option (Input × State) :=
  match s.input with
  | [] => Option.none
  | i :: rest => some (i, { s with input := rest })

end Sys2Proof.Machine
end

