-- ==== Sys2Proof/Machine/Transform.lean ====
section
/-! DEFINITION. The chained transform CXF: one Window (spec/41_chained_transform.md R100), the state-updating step
(R104), and the command `WIN` (R105). -/

namespace Sys2Proof.Machine

/-- What `TStep` returns (R100): the output byte and the 32-bit quotient it is the low byte of, or `DivZero`. -/
inductive StepResult where
  /-- `Ok(byte, quotient)`. -/
  | ok (byte : Byte) (quotient : Word32)
  /-- The divisor is 0: no quotient, no byte (R102). -/
  | divZero
  deriving DecidableEq, Repr

/-- R100 steps 4 and 5: the two halves of the Word and the index, xored. -/
def mixedOf (word : Word64) (idx : Word32) : Word32 := valueOf word ^^^ keyOf word ^^^ idx

/-- R100 step 6: twice the carried value, wrapping modulo 2^32 (R101 (b)). -/
def divisorOf (prev : Word32) : Word32 := 2#32 * prev

/-- `TStep(word, prev, idx)` of R100: unsigned, truncating, and total because the divisor is tested first (R102). -/
def tStep (word : Word64) (prev idx : Word32) : StepResult :=
  if divisorOf prev = 0#32 then .divZero
  else
    let quotient := mixedOf word idx / divisorOf prev
    .ok (quotient.extractLsb' 0 8) quotient

/-- The successful arm of R104: one byte leaves and the carried state advances. -/
def State.advance (s : State) (byte : Byte) (quotient : Word32) : State :=
  { s.emit byte with lastq := quotient, prev := widenByte byte, idx := s.idx + 1#32 }

/-- `XformStep(w)` of R104: exactly one of the two happens, a byte with the state's advance, or the latched error. -/
def State.xformStep (s : State) (w : Word64) : State :=
  match tStep w s.prev s.idx with
  | .divZero => s.raise .divisionByZero (s.idx.setWidth 64) 0#8
  | .ok byte quotient => s.advance byte quotient

/-- `WIN` (R105): nothing while `done = 1` (R122) or with an error latched, else one transform step. -/
def execWin (word : Word64) (s : State) : Host.Outcome State Fault Refusal :=
  if s.done then .next s
  else if s.err = .none then .next (s.xformStep word)
  else .next s

end Sys2Proof.Machine
end

