-- ==== Sys2Proof/Machine/Armor.lean ====
section
/-! DEFINITION. The armor decoder B85DEC: one group (spec/40_armor_decoder.md R80 to R84) and the command `GRP` (R85). -/

namespace Sys2Proof.Machine

/-- What `DecodeGroup` returns (R80). -/
inductive GroupResult where
  /-- `Ok(b0, b1, b2, b3)`. -/
  | ok (b0 b1 b2 b3 : Byte)
  /-- `BadByte(k, b)`: the symbol at offset `k` has the invalid code `b`. -/
  | badByte (k : Fin 5) (b : Byte)
  /-- `BadChunk`: five valid symbols with a value above 2^32 - 1. -/
  | badChunk
  deriving DecidableEq, Repr

/-- R82, R83: the overflow check on the unreduced value, then the four bytes of the 32-bit value. -/
def groupOfValue (v : Nat) : GroupResult :=
  if v > Config.maxGroupValue then .badChunk
  else
    let w := BitVec.ofNat 32 v
    .ok (groupByte w 0) (groupByte w 1) (groupByte w 2) (groupByte w 3)

/-- `DecodeGroup(s0, s1, s2, s3, s4)` of R80: all five symbols are checked, the lowest offset first (R81), before any
arithmetic. It reads no state (R84). -/
def decodeGroup (s0 s1 s2 s3 s4 : Byte) : GroupResult :=
  match digit? s0, digit? s1, digit? s2, digit? s3, digit? s4 with
  | none, _, _, _, _ => .badByte 0 s0
  | some _, none, _, _, _ => .badByte 1 s1
  | some _, some _, none, _, _ => .badByte 2 s2
  | some _, some _, some _, none, _ => .badByte 3 s3
  | some _, some _, some _, some _, none => .badByte 4 s4
  | some d0, some d1, some d2, some d3, some d4 => groupOfValue (groupValue d0 d1 d2 d3 d4)

/-- R85: four decoded bytes go to the Window assembler; the second group of a pair completes a Window. The held group
is cleared before the transform step, also when that step fails (R85 (c)). -/
def State.assemble (s : State) (d : Word32) : State :=
  if s.holdV then s.dropHold.xformStep (joinGroups s.hold d)
  else s.holdGroup d

/-- R85: what a group's result does to everything but `pos`. An earlier decode error stands; a new one replaces
`None` and `DivisionByZero`; decoded bytes go on only while no error is latched. -/
def State.groupEffect (s : State) (r : GroupResult) : State :=
  if s.err.isDecodeError then s
  else
    match r with
    | .badByte k b => s.raise .invalidByte (s.pos + BitVec.ofNat 64 k.val) b
    | .badChunk => s.raise .invalidChunk s.pos 0#8
    | .ok b0 b1 b2 b3 => if s.err = .none then s.assemble (packGroup b0 b1 b2 b3) else s

/-- `GRP` (R85): nothing while `done = 1` (R122), else the group's effect and, in every case, `pos + 5`. -/
def execGrp (s0 s1 s2 s3 s4 : Byte) (s : State) : Host.Outcome State Fault Refusal :=
  if s.done then .next s
  else .next (s.groupEffect (decodeGroup s0 s1 s2 s3 s4)).countGroup

end Sys2Proof.Machine
end

