-- ==== Sys2Proof/Machine/Control.lean ====
section
/-! DEFINITION. The control commands `INIT` and `END` (spec/42_control_commands.md R120, R121). -/

namespace Sys2Proof.Machine

/-- `INIT` (R120): executed in every state; every field takes its reset value and the output record is emptied. -/
def execInit (s : State) : Host.Outcome State Fault Refusal :=
  .next s.restart

/-- R121: what `ntail` says of the message: 5 to 7 an illegal command, 1 to 4 a wrong length, 0 nothing. Both errors
replace whatever was latched. -/
def State.tailEffect (s : State) (ntail : BitVec 3) : State :=
  if 5 ≤ ntail.toNat then s.raise .illegalCommand s.pos (ntail.setWidth 8)
  else if ntail ≠ 0#3 then s.raise .invalidLength (s.pos + ntail.setWidth 64) 0#8
  else s

/-- `END` (R121): nothing while `done = 1` (R122), else the tail's verdict, the held group dropped, the message
closed. -/
def execEnd (ntail : BitVec 3) (s : State) : Host.Outcome State Fault Refusal :=
  if s.done then .next s
  else .next (s.tailEffect ntail).dropHold.close

end Sys2Proof.Machine
end

