-- ==== Sys2Proof/Machine/Dispatch.lean ====
section
/-! DEFINITION. The meaning of every command, one arm per row of spec/opcode_table.json. -/

namespace Sys2Proof.Machine

/-- The effect of one accepted command, atomic (spec/20_memory.md R49). -/
def exec (i : Instr) (s : State) : Host.Outcome State Fault Refusal :=
  match i with
  | .init => Sys2Proof.Machine.execInit s
  | .grp s0 s1 s2 s3 s4 => Sys2Proof.Machine.execGrp s0 s1 s2 s3 s4 s
  | .win word => Sys2Proof.Machine.execWin word s
  | .endMsg ntail => Sys2Proof.Machine.execEnd ntail s

end Sys2Proof.Machine
end

