-- ==== Sys2Proof/Machine/Step.lean ====
section
/-! DEFINITION. One step of the block (spec/00_scope.md R7): one accepted command, or one assertion of reset. -/

namespace Sys2Proof.Machine

/-- One step: the host's next input is served whole (R48). A command is decoded and executed, reset restarts the block
(R176), and while the host offers nothing "the block holds its state unchanged" (R163). -/
def step (s : State) : Host.Outcome State Fault Refusal :=
  match s.takeInput with
  | Option.none => .next s
  | some (.rst, s') => .next s'.restart
  | some (.cmd w, s') => exec (decode w) s'

/-- `s` with the command whose bits are `w` offered first, ahead of what the host offers already: the block fetches
nothing (R29), so this stands for the host's sending it. -/
def State.withFetchWord (s : State) (nbits w : Nat) : State :=
  { s with input := .cmd (BitVec.ofNat 66 (w % 2 ^ nbits)) :: s.input }

end Sys2Proof.Machine
end

