-- ==== Sys2Proof/Machine/Pipeline.lean ====
section
/-! DEFINITION. The whole-message functions: `Decode` (spec/40_armor_decoder.md R86), `Transform`
(spec/41_chained_transform.md R106), `Pipeline` (spec/43_pipeline_reference.md R135), and the verdict of a closed
message (R138, R140). The block does not run them: the scripts of R137 make it compute them. -/

namespace Sys2Proof.Machine

/-- The result of one message (R2): a byte sequence, or exactly one error with its position and byte (R11
`Err(K, p, b)`). Positions are natural numbers (R138). -/
inductive MessageResult where
  /-- `Ok(bytes)`. -/
  | ok (bytes : List Byte)
  /-- `Err(kind, pos, byte)`. -/
  | err (kind : ErrKind) (pos : Nat) (byte : Byte)
  deriving DecidableEq, Repr

/-- One group of ArmoredText (R12): five consecutive symbols, `s0` at the lowest position. -/
structure TextGroup where
  /-- The symbol at offset 0. -/
  s0 : Byte
  /-- The symbol at offset 1. -/
  s1 : Byte
  /-- The symbol at offset 2. -/
  s2 : Byte
  /-- The symbol at offset 3. -/
  s3 : Byte
  /-- The symbol at offset 4. -/
  s4 : Byte
  deriving DecidableEq, Repr

/-- R46: the whole groups of a text, aligned to multiples of 5 from its first symbol; leftover symbols make none. -/
def groups : List Byte → List TextGroup
  | s0 :: s1 :: s2 :: s3 :: s4 :: rest => ⟨s0, s1, s2, s3, s4⟩ :: groups rest
  | _ => []

/-- R46, R44: the Words of the whole Windows of a byte sequence, aligned to multiples of 8 from its first byte; 1 to 7
trailing bytes are dropped (R47 (b), R107). -/
def windows : List Byte → List Word64
  | b0 :: b1 :: b2 :: b3 :: b4 :: b5 :: b6 :: b7 :: rest => windowWord b0 b1 b2 b3 b4 b5 b6 b7 :: windows rest
  | _ => []

/-- `DecodeGroup` of a group. -/
def TextGroup.decode (g : TextGroup) : GroupResult := decodeGroup g.s0 g.s1 g.s2 g.s3 g.s4

/-- The loop of R86 from symbol position `p` on, with the bytes `raw` of the groups before. -/
def decodeGroups (p : Nat) (raw : List Byte) : List TextGroup → MessageResult
  | [] => .ok raw
  | g :: gs =>
    match g.decode with
    | .badByte k b => .err .invalidByte (p + k.val) b
    | .badChunk => .err .invalidChunk p 0#8
    | .ok b0 b1 b2 b3 => decodeGroups (p + Config.groupSyms) (raw ++ [b0, b1, b2, b3]) gs

/-- `Decode(text)` of R86: the length first, then the groups in text order. -/
def decodeText (text : List Byte) : MessageResult :=
  if text.length % Config.groupSyms ≠ 0 then .err .invalidLength text.length 0#8
  else decodeGroups 0 [] (groups text)

/-- The loop of R106: the fold over the Windows, with the carried `prev`, the index of the next Window and the output
so far (R110). -/
def transformWords (prev idx : Word32) (out : List Byte) : List Word64 → MessageResult
  | [] => .ok out
  | w :: ws =>
    match tStep w prev idx with
    | .divZero => .err .divisionByZero idx.toNat 0#8
    | .ok byte _ => transformWords (widenByte byte) (idx + 1#32) (out ++ [byte]) ws

/-- `Transform(raw)` of R106. -/
def transform (raw : List Byte) : MessageResult :=
  transformWords Config.prevInit Config.idxInit [] (windows raw)

/-- `Pipeline(text)` of R135: the decoder on the whole text, then the transform (R136). -/
def pipeline (text : List Byte) : MessageResult :=
  match decodeText text with
  | .err k p b => .err k p b
  | .ok raw => transform raw

/-- R138, R185: the verdict of a closed message; a message that is not closed has none. -/
def State.verdict (s : State) : Option MessageResult :=
  if s.done then
    some (if s.err = .none then .ok s.out else .err s.err s.errPos.toNat s.errByte)
  else Option.none

/-- R140: the OutputBytes of the message, which exist only when it is closed without an error. -/
def State.outputBytes (s : State) : Option (List Byte) :=
  if s.done && !s.fault then some s.out else Option.none

end Sys2Proof.Machine
end

