-- ==== Sys2Proof/Machine/Script.lean ====
section
/-! DEFINITION. Command scripts: the message scripts of spec/43_pipeline_reference.md R137, and the textual script
syntax of spec/30_encoding.md R74 with its assembler. Scripts are the host's (R8); the block holds none (R34). -/

namespace Sys2Proof.Machine

/-- The `GRP` command that carries a group (R137). -/
def TextGroup.command (g : TextGroup) : Instr := .grp g.s0 g.s1 g.s2 g.s3 g.s4

/-- `TextScript(t)` of R137: `INIT`, a `GRP` for each whole group in text order, `END (n mod 5)`. -/
def textScript (text : List Byte) : List Instr :=
  .init :: (groups text).map TextGroup.command ++ [.endMsg (BitVec.ofNat 3 (text.length % Config.groupSyms))]

/-- `RawScript(r)` of R137: `INIT`, a `WIN` for each whole Window in order, `END 0`. -/
def rawScript (raw : List Byte) : List Instr :=
  .init :: (windows raw).map Instr.win ++ [.endMsg 0#3]

/-- What the host puts on the command channel to send a script. -/
def commandInputs (script : List Instr) : List Input :=
  script.map fun i => .cmd (encode i)

/-- One line of a script in the syntax of R74, read. -/
inductive ScriptLine where
  /-- One of the four commands, in any of its forms. -/
  | command (i : Instr)
  /-- The pseudo-command `TEXT "s"`. -/
  | text (symbols : List Byte)
  /-- The pseudo-command `RAW[ b0 b1 ... ]`. -/
  | raw (bytes : List Byte)
  deriving DecidableEq, Repr

/-- R74: the commands a line stands for. -/
def ScriptLine.expand : ScriptLine → List Instr
  | .command i => [i]
  | .text symbols => textScript symbols
  | .raw bytes => rawScript bytes

/-- The rest of `line` after `word`, where it begins so. -/
def stripWord : (word line : List Char) → Option (List Char)
  | [], line => some line
  | w :: ws, c :: cs => if w = c then stripWord ws cs else none
  | _ :: _, [] => none

/-- `line` cut at every `sep`. -/
def cutAt (sep : Char) : List Char → List (List Char)
  | [] => [[]]
  | c :: cs =>
    match cutAt sep cs with
    | [] => [[c]]
    | piece :: pieces => if c = sep then [] :: piece :: pieces else (c :: piece) :: pieces

/-- The value of a digit of at most hexadecimal, either case. -/
def digitValue? (c : Char) : Option Nat :=
  if '0' ≤ c ∧ c ≤ '9' then some (c.toNat - 48)
  else if 'a' ≤ c ∧ c ≤ 'f' then some (c.toNat - 87)
  else if 'A' ≤ c ∧ c ≤ 'F' then some (c.toNat - 55)
  else none

/-- The digits of a number in `base` read onto `acc`. -/
def readDigits (base acc : Nat) : List Char → Option Nat
  | [] => some acc
  | c :: cs =>
    match digitValue? c with
    | none => none
    | some d => if d < base then readDigits base (base * acc + d) cs else none

/-- A number of `width` bits written in `base`, at least one digit. -/
def numberIn? (base width : Nat) (digits : List Char) : Option (BitVec width) :=
  if digits.isEmpty then none
  else
    match readDigits base 0 digits with
    | none => none
    | some n => if n < 2 ^ width then some (BitVec.ofNat width n) else none

/-- A byte literal (R10): decimal, or hexadecimal after `0x`, or binary after `0b`. -/
def byteLiteral? : List Char → Option Byte
  | '0' :: 'x' :: digits => numberIn? 16 8 digits
  | '0' :: 'b' :: digits => numberIn? 2 8 digits
  | digits => numberIn? 10 8 digits

/-- A byte between brackets: two hexadecimal digits, as spec/95_test_vectors.md P5 writes them. -/
def bracketByte? (digits : List Char) : Option Byte :=
  if digits.length = 2 then numberIn? 16 8 digits else none

/-- Every element read, or nothing. -/
def readAll {α β : Type} (f : α → Option β) : List α → Option (List β)
  | [] => some []
  | a :: as =>
    match f a, readAll f as with
    | some b, some bs => some (b :: bs)
    | _, _ => none

/-- The symbols of a quoted string, the opening quote already read and the closing quote the line's last character:
each character its ASCII code, with the three escapes of R74. -/
def quoted? : List Char → Option (List Byte)
  | [] => none
  | '\\' :: 'x' :: h :: l :: rest =>
    match numberIn? 16 8 [h, l], quoted? rest with
    | some b, some bs => some (b :: bs)
    | _, _ => none
  | '\\' :: '\\' :: rest => (quoted? rest).map (0x5C#8 :: ·)
  | '\\' :: '"' :: rest => (quoted? rest).map (0x22#8 :: ·)
  | '\\' :: _ => none
  | '"' :: rest => if rest.isEmpty then some [] else none
  | c :: rest => if c.toNat < 128 then (quoted? rest).map (BitVec.ofNat 8 c.toNat :: ·) else none

/-- The bytes of `b0 b1 ... ]`, blank-separated, the bracket the last word. -/
def bracketed? (body : List Char) : Option (List Byte) :=
  let words := (cutAt ' ' body).filter fun w => !w.isEmpty
  if words.getLast? = some [']'] then readAll bracketByte? words.dropLast else none

/-- Five symbols as a `GRP`. -/
def grpOf? : List Byte → Option ScriptLine
  | [s0, s1, s2, s3, s4] => some (.command (.grp s0 s1 s2 s3 s4))
  | _ => none

/-- Eight Window bytes in RawBytes order as a `WIN`. -/
def winOf? : List Byte → Option ScriptLine
  | [b0, b1, b2, b3, b4, b5, b6, b7] => some (.command (.win (windowWord b0 b1 b2 b3 b4 b5 b6 b7)))
  | _ => none

/-- The operands of a `GRP` line: a quoted string or five byte literals. -/
def grpOperands? : List Char → Option ScriptLine
  | '"' :: rest => (quoted? rest).bind grpOf?
  | rest => (readAll byteLiteral? (cutAt ',' rest)).bind grpOf?

/-- The Word of a `WIN` line: sixteen hexadecimal digits. -/
def winOperand? (digits : List Char) : Option ScriptLine :=
  if digits.length = 16 then (numberIn? 16 64 digits).map fun w => .command (.win w) else none

/-- The `n` of an `END` line, from 0 to 7. -/
def endOperand? (digits : List Char) : Option ScriptLine :=
  if digits.length = 1 then (numberIn? 10 3 digits).map fun n => .command (.endMsg n) else none

/-- The forms of R74, tried in this order: no line has two of them. -/
def readLine? (line : List Char) : Option ScriptLine :=
  if line = ['I', 'N', 'I', 'T'] then some (.command .init)
  else
    (((stripWord ['G', 'R', 'P', ' '] line).bind grpOperands?).or
      ((stripWord ['W', 'I', 'N', ' ', '0', 'x'] line).bind winOperand?)).or <|
    (((stripWord ['W', 'I', 'N', '['] line).bind bracketed?).bind winOf?).or <|
    ((stripWord ['E', 'N', 'D', ' '] line).bind endOperand?).or <|
    (((stripWord ['T', 'E', 'X', 'T', ' ', '"'] line).bind quoted?).map ScriptLine.text).or
      (((stripWord ['R', 'A', 'W', '['] line).bind bracketed?).map ScriptLine.raw)

/-- The lines of a script, one command each (R74); an empty line stands for nothing. -/
def readScript? (source : List Char) : Option (List ScriptLine) :=
  readAll readLine? ((cutAt '\n' source).filter fun l => !l.isEmpty)

/-- The assembler of R74: the commands of a script's text. -/
def assemble? (source : List Char) : Option (List Instr) :=
  (readScript? source).map fun lines => (lines.map ScriptLine.expand).flatten

end Sys2Proof.Machine
end

