-- ==== Sys2Proof/Safety.lean ====
section
/-! DEFINITION. What claims about the machine are stated in: the invariant of spec/10_state.md R36, inputs that keep a
message open to disturbance, several steps in a row (spec/20_memory.md R48), and the invariant of a text's script
(spec/43_pipeline_reference.md R138). -/

namespace Sys2Proof.Machine

/-- The invariants (a) to (i) of R36, read over the state and its output record: a transform step of the message has
succeeded exactly when a byte has been emitted. -/
structure MessageInv (s : State) : Prop where
  /-- (a): `prev` is a byte. -/
  prev_byte : s.prev.toNat ≤ 255
  /-- (a): `prev = 1` until the first successful transform step of the message. -/
  prev_first : s.out = [] → s.prev = Config.prevInit
  /-- (b). -/
  hold_empty : s.holdV = false → s.hold = 0#32
  /-- (c). -/
  clear : s.err = .none → s.errPos = 0#64 ∧ s.errByte = 0#8
  /-- (d). -/
  raised : s.err ≠ .invalidTail ∧ s.err ≠ .reserved
  /-- (e). -/
  final : s.err = .invalidLength ∨ s.err = .illegalCommand → s.done = true
  /-- (f). -/
  div_zero : s.err = .divisionByZero → s.prev = 0#32 ∧ s.errPos = s.idx.setWidth 64
  /-- (g), after a successful step. -/
  lastq_low : s.out ≠ [] → s.lastq.extractLsb' 0 8 = s.prev.extractLsb' 0 8
  /-- (g), before one. -/
  lastq_first : s.out = [] → s.lastq = 0#32
  /-- (h). -/
  out_count : BitVec.ofNat 32 s.out.length = s.idx
  /-- (i). -/
  done_drop : s.done = true → s.holdV = false

/-- An input that starts a new message: `INIT`, or reset (R12 Message). -/
def Input.startsMessage : Input → Bool
  | .rst => true
  | .cmd w => decide (decode w = .init)

/-- `n` steps in a row, each from the state the one before left (R48). -/
def runSteps (n : Nat) (s : State) : Host.Outcome State Fault Refusal :=
  Host.Core.run Sys2Proof.core n s

/-- The state with a script offered by the host. -/
def State.offer (s : State) (script : List Instr) : State :=
  { s with input := commandInputs script }

/-- The invariant of R138, of the state after `INIT` and the first `g` `GRP` commands of a text's script: a decode error
of the groups so far stands; else the transform of their bytes is under way, with a last odd group held, or has met its
division by zero, at Window `m`, and `out` holds the bytes of the `m` Windows before (spec/90_conflicts.md C12). -/
def TextPrefixInv (text : List Byte) (g : Nat) (t : State) : Prop :=
  t.pos.toNat = 5 * g ∧ t.done = false ∧
  (∀ k p b, decodeText (text.take (5 * g)) = .err k p b → t.err = k ∧ t.errPos.toNat = p ∧ t.errByte = b) ∧
  ∀ raw, decodeText (text.take (5 * g)) = .ok raw →
    (∀ out, transform raw = .ok out →
      t.err = .none ∧ t.out = out ∧ t.idx = BitVec.ofNat 32 out.length ∧
      t.prev = ((out.getLast?.map widenByte).getD Config.prevInit) ∧ t.holdV = decide (g % 2 = 1) ∧
      (g % 2 = 1 → ∃ b0 b1 b2 b3, raw.drop (4 * (g - 1)) = [b0, b1, b2, b3] ∧ t.hold = packGroup b0 b1 b2 b3)) ∧
    (∀ k i b, transform raw = .err k i b →
      t.err = .divisionByZero ∧ t.errPos.toNat = i ∧ t.errByte = 0#8 ∧ t.prev = 0#32 ∧ t.idx.toNat = i ∧
      ∃ m < raw.length / 8, i = m % 2 ^ 32 ∧ transform (raw.take (8 * m)) = .ok t.out ∧
        transform (raw.take (8 * (m + 1))) = .err .divisionByZero i 0#8)

end Sys2Proof.Machine
end

