-- ==== Sys2Proof/Certificates/Slice0/Obligations.lean ====
section
/-! DEFINITION. The statements about the machine. Each docstring names the rule of spec/ it rests on. -/

open Sys2Proof Sys2Proof.Machine

/-! Encoding -/

/-- R60 to R63, R67, R68: no operand bit is dropped by the encoder or the decoder. The rules give the words; that the
two functions agree on them is derived. -/
def Obligations.DecodeOfEncodeIsTheCommand : Prop :=
  (∀ i : Instr, decode (encode i) = i) ∧
  ∀ w : CmdWord, encode (decode w) ||| (w &&& ignoredBits (decode w)) = w

/-- R61, R62, R63, R67, R68, bit by bit: what every 66-bit word decodes to, whatever its ignored bits. -/
def Obligations.EveryWordDecodesByItsFields : Prop :=
  (∀ p : BitVec 64, decode (0b00#2 ++ p) = .init) ∧
  (∀ (x : BitVec 24) (s0 s1 s2 s3 s4 : Byte),
    decode (0b01#2 ++ x ++ s4 ++ s3 ++ s2 ++ s1 ++ s0) = .grp s0 s1 s2 s3 s4) ∧
  (∀ key value : Word32, decode (0b10#2 ++ key ++ value) = .win (key ++ value)) ∧
  (∀ (x : BitVec 61) (n : BitVec 3), decode (0b11#2 ++ x ++ n) = .endMsg n)

/-- The command words that R63, R67 and spec/95_test_vectors.md write out, decoded. -/
def Obligations.WrittenWordsDecode : Prop :=
  decode 0x0FFFFFFFFFFFFFFFF#66 = .init ∧
  decode 0x10000007750366761#66 = .grp 0x61#8 0x67#8 0x36#8 0x50#8 0x77#8 ∧
  decode 0x1FFFFFF7750366761#66 = .grp 0x61#8 0x67#8 0x36#8 0x50#8 0x77#8 ∧
  decode 0x21FD8B3B91FD8B31F#66 = .win 0x1FD8B3B91FD8B31F#64 ∧
  decode 0x30000000000000003#66 = .endMsg 3#3 ∧
  decode 0x30000000000000007#66 = .endMsg 7#3

/-- R74: a `TEXT` line whose symbols are printable characters other than the quote and the backslash is read as the
symbols' ASCII codes and stands for `TextScript` of them. -/
def Obligations.TextLineExpandsToTextScript : Prop :=
  ∀ symbols : List Char, (∀ c ∈ symbols, 32 ≤ c.toNat ∧ c.toNat < 127 ∧ c ≠ '"' ∧ c ≠ '\\') →
    (readLine? (['T', 'E', 'X', 'T', ' ', '"'] ++ symbols ++ ['"'])).map ScriptLine.expand =
      some (textScript (symbols.map fun c => BitVec.ofNat 8 c.toNat))

/-! The data encodings -/

/-- R65, the lookup table row by row over all 256 codes; a symbol is valid when its code has a
value there. -/
def Obligations.DigitTableIsR65 : Prop :=
  ((List.range 256).map (fun c => digit? (BitVec.ofNat 8 c)) =
    List.replicate 32 none ++
    [none, some 68, none, some 84, some 83, some 82, some 72, none] ++
    [some 75, some 76, some 70, some 65, none, some 63, some 62, some 69] ++
    [some 0, some 1, some 2, some 3, some 4, some 5, some 6, some 7] ++
    [some 8, some 9, some 64, none, some 73, some 66, some 74, some 71] ++
    [some 81, some 36, some 37, some 38, some 39, some 40, some 41, some 42] ++
    [some 43, some 44, some 45, some 46, some 47, some 48, some 49, some 50] ++
    [some 51, some 52, some 53, some 54, some 55, some 56, some 57, some 58] ++
    [some 59, some 60, some 61, some 77, none, some 78, some 67, none] ++
    [none, some 10, some 11, some 12, some 13, some 14, some 15, some 16] ++
    [some 17, some 18, some 19, some 20, some 21, some 22, some 23, some 24] ++
    [some 25, some 26, some 27, some 28, some 29, some 30, some 31, some 32] ++
    [some 33, some 34, some 35, some 79, none, some 80, none, none] ++
    List.replicate 128 none) ∧
  ∀ code : Byte, validSymbol code = true ↔ ∃ v, digit? code = some v

/-- R80, R81: the lowest invalid symbol of a group is reported, with its own code, whatever follows it. -/
def Obligations.DecodeGroupReportsLowestInvalidSymbol : Prop :=
  ∀ (s0 s1 s2 s3 s4 : Byte) (k : Fin 5),
    let symbols := #v[s0, s1, s2, s3, s4]
    (∀ j : Fin 5, j < k → validSymbol symbols[j] = true) → validSymbol symbols[k] = false →
      decodeGroup s0 s1 s2 s3 s4 = .badByte k symbols[k]

/-- R80, R82, R83: five valid symbols with digits `d0` to `d4` give `BadChunk` exactly when their unreduced value
exceeds 2^32 - 1, which needs a first digit of at least 82, and otherwise four bytes whose big-endian value it is. -/
def Obligations.DecodeGroupOfValidSymbols : Prop :=
  ∀ (s0 s1 s2 s3 s4 : Byte) (d0 d1 d2 d3 d4 v : Nat), digit? s0 = some d0 → digit? s1 = some d1 →
    digit? s2 = some d2 → digit? s3 = some d3 → digit? s4 = some d4 →
    v = d0 * 52200625 + d1 * 614125 + d2 * 7225 + d3 * 85 + d4 →
    (4294967295 < v → decodeGroup s0 s1 s2 s3 s4 = .badChunk ∧ 82 ≤ d0) ∧
    (v ≤ 4294967295 → ∃ b0 b1 b2 b3 : Byte, decodeGroup s0 s1 s2 s3 s4 = .ok b0 b1 b2 b3 ∧
      b0.toNat * 2 ^ 24 + b1.toNat * 2 ^ 16 + b2.toNat * 2 ^ 8 + b3.toNat = v)

/-- R44, R46: Window `i` of a byte sequence is its bytes `8i` to `8i + 7`, and its Word the little-endian number they
spell; there are floor(L / 8) of them. -/
def Obligations.WindowsAreLittleEndianSlices : Prop :=
  ∀ raw : List Byte, (windows raw).length = raw.length / 8 ∧
    ∀ (i : Nat) (word : Word64), (windows raw)[i]? = some word →
      word.toNat = ∑ j ∈ Finset.range 8, (raw.getD (8 * i + j) 0#8).toNat * 2 ^ (8 * j)

/-- R46, R63: group `g` of a text is its symbols `5g` to `5g + 4`; there are floor(n / 5) of them. -/
def Obligations.GroupsAreFiveSymbolSlices : Prop :=
  ∀ text : List Byte, (groups text).length = text.length / 5 ∧
    ∀ (g : Nat) (grp : TextGroup), (groups text)[g]? = some grp →
      [grp.s0, grp.s1, grp.s2, grp.s3, grp.s4] = (text.drop (5 * g)).take 5

/-- R45: on the armored path each half of the Word is the byte-reversed group value. -/
def Obligations.ArmoredWordHalvesAreByteSwapped : Prop :=
  ∀ va vb : Word32,
    let word := windowWord (groupByte va 0) (groupByte va 1) (groupByte va 2) (groupByte va 3)
      (groupByte vb 0) (groupByte vb 1) (groupByte vb 2) (groupByte vb 3)
    valueOf word = bswap32 va ∧ keyOf word = bswap32 vb ∧ word = bswap32 vb ++ bswap32 va ∧
      word = joinGroups (packGroup (groupByte va 0) (groupByte va 1) (groupByte va 2) (groupByte va 3))
        (packGroup (groupByte vb 0) (groupByte vb 1) (groupByte vb 2) (groupByte vb 3))

/-! Reset, the step and the status registers -/

/-- R175: what reset leaves, field by field, and what the status registers and the level outputs then read. -/
def Obligations.ResetLeavesR175 : Prop :=
  let s := State.reset
  (s.prev = 1#32 ∧ s.idx = 0#32 ∧ s.hold = 0#32 ∧ s.holdV = false ∧ s.pos = 0#64 ∧ s.done = false ∧ s.err = .none ∧
    s.errPos = 0#64 ∧ s.errByte = 0#8 ∧ s.lastq = 0#32 ∧ s.out = []) ∧
  s.statusReg 4#3 = 1#64 ∧ (∀ i : BitVec 3, i ≠ 4#3 → s.statusReg i = 0#64) ∧ s.doneO = false ∧ s.faultO = false

/-- R176: the reset input puts the block in the state of R175 whatever it was doing, and that state is, field by
field, the state after `INIT`. -/
def Obligations.ResetInputRestartsTheBlock : Prop :=
  ∀ (s : State) (rest : List Input), s.input = .rst :: rest →
    ∃ t, step s = .next t ∧ t.toBlock = State.reset.toBlock ∧ t.out = [] ∧
      ∃ u, exec .init s = .next u ∧ u.toBlock = t.toBlock ∧ u.out = t.out

/-- R60, R61, R48: a step on an offered command word is `exec` of the command the word decodes to, with the word taken
from the channel. -/
def Obligations.StepRunsTheDecodedCommand : Prop :=
  ∀ (s : State) (w : CmdWord) (rest : List Input), s.input = .cmd w :: rest →
    step s = exec (decode w) { s with input := rest }

/-- R163: between commands the block holds its state unchanged. That a step with nothing offered is such an interval
is the model's choice (log entry 1). -/
def Obligations.StepWithNothingOfferedHolds : Prop :=
  ∀ s : State, s.input = [] → step s = .next s

/-- R184, R48: every command completes, in every state, so that any number of steps ends in a next state with exactly
the inputs after them still to be served. -/
def Obligations.EveryRunCompletes : Prop :=
  ∀ (n : Nat) (s : State), ∃ t : State, runSteps n s = .next t ∧ t.input = s.input.drop n

/-- R31, R32, R72: the eight error codes that `STATUS` shows in bits 6:4; every status register as a number, in every
state; the two level outputs; the reset values. -/
def Obligations.StatusRegistersReadTheFields : Prop :=
  (ErrKind.none.code = 0#3 ∧ ErrKind.invalidLength.code = 1#3 ∧ ErrKind.invalidByte.code = 2#3 ∧
    ErrKind.invalidChunk.code = 3#3 ∧ ErrKind.invalidTail.code = 4#3 ∧ ErrKind.divisionByZero.code = 5#3 ∧
    ErrKind.illegalCommand.code = 6#3 ∧ ErrKind.reserved.code = 7#3) ∧
  (∀ b : Block,
    (b.statusReg 0#3).toNat = b.done.toNat + 2 * (decide (b.err ≠ .none)).toNat + 4 * b.holdV.toNat +
      16 * b.err.code.toNat + 256 * b.errByte.toNat ∧
    b.statusReg 1#3 = b.errPos ∧ b.statusReg 2#3 = b.pos ∧ (b.statusReg 3#3).toNat = b.idx.toNat ∧
    (b.statusReg 4#3).toNat = b.prev.toNat ∧ (b.statusReg 5#3).toNat = b.hold.toNat ∧
    (b.statusReg 6#3).toNat = b.lastq.toNat ∧ b.statusReg 7#3 = 0#64 ∧
    (b.statusReg 0#3).getLsbD 0 = b.doneO ∧ (b.statusReg 0#3).getLsbD 1 = b.faultO) ∧
  State.reset.statusReg 4#3 = 1#64 ∧ ∀ i : BitVec 3, i ≠ 4#3 → State.reset.statusReg i = 0#64

/-! The commands -/

/-- R120: `INIT` completes in every state; every field takes its reset value and the output record is emptied. -/
def Obligations.InitRestartsTheMessage : Prop :=
  ∀ s : State, exec .init s = .next
    { prev := 1#32, idx := 0#32, hold := 0#32, holdV := false, pos := 0#64, done := false, err := .none,
      errPos := 0#64, errByte := 0#8, lastq := 0#32, out := [], input := s.input }

/-- R100: `TStep` on every Word and every carried state, in natural numbers. -/
def Obligations.TStepIsTheDocumentsAlgorithm : Prop :=
  ∀ (word : Word64) (prev idx : Word32),
    let key := word.toNat / 2 ^ 32
    let value := word.toNat % 2 ^ 32
    let mixed := (value ^^^ key) ^^^ idx.toNat
    let divisor := 2 * prev.toNat % 2 ^ 32
    let quotient := mixed / divisor
    (divisor = 0 → tStep word prev idx = .divZero) ∧
    (divisor ≠ 0 → tStep word prev idx = .ok (BitVec.ofNat 8 quotient) (BitVec.ofNat 32 quotient))

/-- R101: the arithmetic laws of a successful `TStep`: truncating division, a quotient of at most 0x7FFFFFFF, the byte
the quotient modulo 256, no wrap of the doubling for a carried byte; and `DivZero` exactly on the two values of `prev`
whose double is 0 modulo 2^32. -/
def Obligations.TStepArithmeticLaws : Prop :=
  ∀ (word : Word64) (prev idx : Word32),
    (∀ (byte : Byte) (quotient : Word32), tStep word prev idx = .ok byte quotient →
      quotient.toNat * (divisorOf prev).toNat ≤ (valueOf word ^^^ keyOf word ^^^ idx).toNat ∧
      (valueOf word ^^^ keyOf word ^^^ idx).toNat < (quotient.toNat + 1) * (divisorOf prev).toNat ∧
      quotient.toNat ≤ 0x7FFFFFFF ∧ byte.toNat = quotient.toNat % 256) ∧
    (prev.toNat ≤ 255 → (divisorOf prev).toNat = 2 * prev.toNat) ∧
    (tStep word prev idx = .divZero ↔ prev = 0#32 ∨ prev = 0x80000000#32)

/-- R104: `XformStep` either emits one byte and advances the carried state, or latches `DivisionByZero` at the current
index and changes nothing else. -/
def Obligations.XformStepEmitsOrLatches : Prop :=
  ∀ (s : State) (w : Word64),
    (tStep w s.prev s.idx = .divZero → s.xformStep w =
      { s with err := .divisionByZero, errPos := s.idx.setWidth 64, errByte := 0#8 }) ∧
    (∀ (byte : Byte) (quotient : Word32), tStep w s.prev s.idx = .ok byte quotient → s.xformStep w =
      { s with out := s.out ++ [byte], lastq := quotient, prev := byte.setWidth 32, idx := s.idx + 1#32 })

/-- R105: `WIN`. Nothing while `done = 1` or with an error latched; else one transform step on the payload, which
leaves `hold`, `hold_v` and `pos` as they are. -/
def Obligations.WinRunsOneTransformStep : Prop :=
  ∀ (s : State) (word : Word64),
    let mixed := ((word.toNat % 2 ^ 32) ^^^ (word.toNat / 2 ^ 32)) ^^^ s.idx.toNat
    let divisor := 2 * s.prev.toNat % 2 ^ 32
    (s.done = true ∨ s.err ≠ .none → exec (.win word) s = .next s) ∧
    (s.done = false → s.err = .none → divisor = 0 → exec (.win word) s = .next
      { s with err := .divisionByZero, errPos := s.idx.setWidth 64, errByte := 0#8 }) ∧
    (s.done = false → s.err = .none → divisor ≠ 0 → exec (.win word) s = .next
      { s with
        out := s.out ++ [BitVec.ofNat 8 (mixed / divisor)]
        lastq := BitVec.ofNat 32 (mixed / divisor)
        prev := BitVec.ofNat 32 (mixed / divisor % 256)
        idx := BitVec.ofNat 32 (s.idx.toNat + 1) })

/-- R85: `GRP` in every state and on every five symbols, in terms of `DecodeGroup` and `XformStep`. In every case but
`done = 1` the position advances by 5. -/
def Obligations.GrpDecodesAndFeedsTheAssembler : Prop :=
  ∀ (s : State) (s0 s1 s2 s3 s4 : Byte),
    let next := exec (.grp s0 s1 s2 s3 s4) s
    let r := decodeGroup s0 s1 s2 s3 s4
    let counted := { s with pos := s.pos + 5#64 }
    let earlier := s.err = .invalidByte ∨ s.err = .invalidChunk
    (s.done = true → next = .next s) ∧
    (s.done = false → earlier → next = .next counted) ∧
    (∀ k b, s.done = false → ¬earlier → r = .badByte k b → next = .next
      { counted with err := .invalidByte, errPos := s.pos + BitVec.ofNat 64 k.val, errByte := b }) ∧
    (s.done = false → ¬earlier → r = .badChunk → next = .next
      { counted with err := .invalidChunk, errPos := s.pos, errByte := 0#8 }) ∧
    (∀ b0 b1 b2 b3, s.done = false → r = .ok b0 b1 b2 b3 →
      (s.err = .none → s.holdV = false → next = .next
        { counted with hold := b3 ++ b2 ++ b1 ++ b0, holdV := true }) ∧
      (s.err = .none → s.holdV = true → next = .next
        { ({ s with hold := 0#32, holdV := false }).xformStep (b3 ++ b2 ++ b1 ++ b0 ++ s.hold) with
          pos := s.pos + 5#64 }) ∧
      (s.err ≠ .none → next = .next counted))

/-- R121: `END` in every state and for every `ntail`. -/
def Obligations.EndClosesTheMessage : Prop :=
  ∀ (s : State) (ntail : BitVec 3),
    let closed := { s with hold := 0#32, holdV := false, done := true }
    (s.done = true → exec (.endMsg ntail) s = .next s) ∧
    (s.done = false → ntail.toNat = 0 → exec (.endMsg ntail) s = .next closed) ∧
    (s.done = false → 1 ≤ ntail.toNat → ntail.toNat ≤ 4 → exec (.endMsg ntail) s = .next
      { closed with err := .invalidLength, errPos := BitVec.ofNat 64 (s.pos.toNat + ntail.toNat), errByte := 0#8 }) ∧
    (s.done = false → 5 ≤ ntail.toNat → exec (.endMsg ntail) s = .next
      { closed with err := .illegalCommand, errPos := s.pos, errByte := BitVec.ofNat 8 ntail.toNat })

/-- R122: while `done = 1` every command but `INIT` changes nothing, and only `INIT` or reset leaves that state. -/
def Obligations.OnlyInitOrResetLeavesDone : Prop :=
  (∀ (i : Instr) (s : State), s.done = true → i ≠ .init → exec i s = .next s) ∧
  ∀ s t : State, s.done = true → step s = .next t → t.done = false →
    ∃ (i : Input) (rest : List Input), s.input = i :: rest ∧ i.startsMessage = true

/-! Whole-machine rules -/

/-- The invariant of R36 holds at reset. -/
def Obligations.ResetMeetsMessageInvariant : Prop :=
  MessageInv State.reset

/-- R36: every step keeps the invariants (a) to (i), from every state that has them; with the statement about reset
they hold in every state reachable from it. -/
def Obligations.EveryStepKeepsMessageInvariant : Prop :=
  ∀ s t : State, MessageInv s → step s = .next t → MessageInv t

/-- R36, R48: the invariants hold after any number of steps on any inputs from reset. -/
def Obligations.EveryRunFromResetMeetsMessageInvariant : Prop :=
  ∀ (inputs : List Input) (n : Nat) (t : State), runSteps n { State.reset with input := inputs } = .next t →
    MessageInv t

/-- R21, R22, R27, R35, R7: a command other than `INIT` either leaves the output, `prev`, `idx` and `lastq` as they
are, or emits one byte, the low byte of the new `lastq`, carries it in `prev` and moves `idx` on by one. -/
def Obligations.CommandEmitsAtMostOneByte : Prop :=
  ∀ (i : Instr) (s t : State), i ≠ .init → exec i s = .next t →
    (t.out = s.out ∧ t.prev = s.prev ∧ t.idx = s.idx ∧ t.lastq = s.lastq) ∨
    (∃ b : Byte, t.out = s.out ++ [b] ∧ t.prev = b.setWidth 32 ∧ t.idx = s.idx + 1#32 ∧
      t.lastq.extractLsb' 0 8 = b ∧ s.err = .none ∧ t.err = .none ∧ s.done = false)

/-- R24: what each command does to `pos`. -/
def Obligations.OnlyGrpCountsSymbols : Prop :=
  ∀ (i : Instr) (s t : State), exec i s = .next t →
    t.pos = match i with
      | .init => 0#64
      | .grp _ _ _ _ _ => if s.done then s.pos else BitVec.ofNat 64 (s.pos.toNat + 5)
      | .win _ => s.pos
      | .endMsg _ => s.pos

/-- R152: in a state that meets the invariant, a command other than `INIT` that changes any of the three error fields
latches a kind of strictly higher rank than the one before; the ranks are those of the rule. -/
def Obligations.LatchedErrorsOnlyRiseInRank : Prop :=
  (ErrKind.none.rank = some 0 ∧ ErrKind.divisionByZero.rank = some 1 ∧ ErrKind.invalidByte.rank = some 2 ∧
    ErrKind.invalidChunk.rank = some 2 ∧ ErrKind.invalidLength.rank = some 3 ∧ ErrKind.illegalCommand.rank = some 4) ∧
  ∀ (i : Instr) (s t : State), MessageInv s → i ≠ .init → exec i s = .next t →
    (t.err ≠ s.err ∨ t.errPos ≠ s.errPos ∨ t.errByte ≠ s.errByte) →
      ∃ m n : Nat, s.err.rank = some m ∧ t.err.rank = some n ∧ m < n

/-- R153: a command other than `INIT` that latches an error emits nothing and leaves `prev`, `idx` and `lastq` as they
were before it. -/
def Obligations.LatchingLeavesTheCarriedState : Prop :=
  ∀ (i : Instr) (s t : State), i ≠ .init → exec i s = .next t →
    (t.err ≠ s.err ∨ t.errPos ≠ s.errPos ∨ t.errByte ≠ s.errByte) →
      t.out = s.out ∧ t.prev = s.prev ∧ t.idx = s.idx ∧ t.lastq = s.lastq

/-- R154: an error is cleared by nothing but `INIT` and reset, over any number of steps. -/
def Obligations.OnlyInitOrResetClearsAnError : Prop :=
  ∀ (n : Nat) (s t : State), s.err ≠ .none → (∀ i ∈ s.input.take n, i.startsMessage = false) →
    runSteps n s = .next t → t.err ≠ .none

/-- R25, R122, R140: once the message is closed its result stands, over any number of steps, until an input starts a
new message. -/
def Obligations.ClosedMessageIsUndisturbed : Prop :=
  ∀ (n : Nat) (s : State), s.done = true → (∀ i ∈ s.input.take n, i.startsMessage = false) →
    runSteps n s = .next { s with input := s.input.drop n }

/-- R3: what follows an `INIT` is a function of the commands from that `INIT` on; neither the state at the start nor the
commands sent before the `INIT` have any influence. -/
def Obligations.WhatPrecedesInitHasNoInfluence : Prop :=
  ∀ (s s' : State) (before script : List Instr) (n : Nat),
    runSteps (before.length + (n + 1)) (s.offer (before ++ .init :: script)) =
      runSteps (n + 1) (s'.offer (.init :: script))

/-! The whole-message functions -/

/-- R87: the length law of `Decode`, and the empty text. -/
def Obligations.DecodeLengthLaw : Prop :=
  decodeText [] = .ok [] ∧
  ∀ text raw : List Byte, decodeText text = .ok raw → raw.length = text.length / 5 * 4

/-- R107: the truncation law of `Transform`; the trailing bytes are not read. -/
def Obligations.TransformTruncationLaw : Prop :=
  ∀ raw : List Byte,
    (∀ out, transform raw = .ok out → out.length = raw.length / 8) ∧
    (raw.length < 8 → transform raw = .ok []) ∧
    (∀ raw', raw'.length / 8 = raw.length / 8 →
      raw'.take (8 * (raw.length / 8)) = raw.take (8 * (raw.length / 8)) → transform raw' = transform raw) ∧
    transform (raw.take (8 * (raw.length / 8))) = transform raw

/-- R109: output byte `i` is `TStep` of Word `i`, of output byte `i - 1` (of 1 for the first), and of `i`. -/
def Obligations.TransformChainingLaw : Prop :=
  ∀ (raw out : List Byte), transform raw = .ok out →
    ∀ (i : Nat) (word : Word64), (windows raw)[i]? = some word →
      ∃ (byte : Byte) (quotient : Word32), out[i]? = some byte ∧
        tStep word (if i = 0 then 1#32 else (out.getD (i - 1) 0#8).setWidth 32) (BitVec.ofNat 32 i) =
          .ok byte quotient

/-- R109, the prefix law, for sequences of fewer than 2^32 Windows (beyond that the reported index is not the Window's
number): the first `m` Windows give the first `m` bytes, or the same error if its index is below `m`. -/
def Obligations.TransformPrefixLaw : Prop :=
  ∀ (raw : List Byte) (m : Nat), raw.length / 8 < 2 ^ 32 → m ≤ raw.length / 8 →
    (∀ out, transform raw = .ok out → transform (raw.take (8 * m)) = .ok (out.take m)) ∧
    (∀ k i b, transform raw = .err k i b → i < m → transform (raw.take (8 * m)) = .err k i b) ∧
    (∀ k i b, transform raw = .err k i b → m ≤ i →
      ∃ out, transform (raw.take (8 * m)) = .ok out ∧ out.length = m)

/-- R182: a byte 0 emitted for Window `k` is an output like any other when no Window follows, and fatal when one does. -/
def Obligations.ZeroByteIsFatalToTheNextWindow : Prop :=
  ∀ (raw out : List Byte) (k : Nat), transform (raw.take (8 * (k + 1))) = .ok out → out.length = k + 1 →
    out.getLast? = some 0#8 →
      (raw.length / 8 = k + 1 → transform raw = .ok out) ∧
      (k + 1 < raw.length / 8 → transform raw = .err .divisionByZero ((k + 1) % 2 ^ 32) 0#8)

/-- R136 with R86: the precedence of errors in `Pipeline`: the length, then the first group in text order that fails,
then whatever the transform answers on the decoded bytes. -/
def Obligations.PipelineErrorPrecedence : Prop :=
  ∀ text : List Byte,
    (text.length % 5 ≠ 0 → pipeline text = .err .invalidLength text.length 0#8) ∧
    (text.length % 5 = 0 → ∀ (g : Nat) (bad : TextGroup), (groups text)[g]? = some bad →
      (∀ j < g, ∀ good, (groups text)[j]? = some good → ∃ b0 b1 b2 b3, good.decode = .ok b0 b1 b2 b3) →
        (∀ k b, bad.decode = .badByte k b → pipeline text = .err .invalidByte (5 * g + k.val) b) ∧
        (bad.decode = .badChunk → pipeline text = .err .invalidChunk (5 * g) 0#8)) ∧
    (∀ raw, decodeText text = .ok raw → pipeline text = transform raw)

/-- R135: `Pipeline` passes a decoder error on and else answers what `Transform` answers on the decoded bytes; so it
returns floor(n / 10) bytes, or one of the four errors with the operands the rule lists. -/
def Obligations.PipelineResultShape : Prop :=
  ∀ text : List Byte,
    (∀ k p b, decodeText text = .err k p b → pipeline text = .err k p b) ∧
    (∀ raw, decodeText text = .ok raw → pipeline text = transform raw) ∧
    ((∃ out, pipeline text = .ok out ∧ out.length = text.length / 10) ∨
      pipeline text = .err .invalidLength text.length 0#8 ∨
      (∃ p b, pipeline text = .err .invalidByte p b ∧ text[p]? = some b ∧ validSymbol b = false) ∨
      (∃ g, pipeline text = .err .invalidChunk (5 * g) 0#8 ∧ 5 * g < text.length) ∨
      (∃ i, pipeline text = .err .divisionByZero i 0#8 ∧ i < 2 ^ 32))

/-- R138: for every text shorter than 2^64 symbols, sending `TextScript` from any state closes the message with a
verdict equal to `Pipeline` of the text, and after its `INIT` and first `g` `GRP` commands the state is as the rule's
invariant says. The count of steps is the count of commands: one command, one step. -/
def Obligations.TextScriptComputesPipeline : Prop :=
  ∀ (text : List Byte) (s : State), text.length < 2 ^ 64 →
    (∃ t, runSteps (textScript text).length (s.offer (textScript text)) = .next t ∧ t.input = [] ∧
      t.done = true ∧ t.verdict = some (pipeline text)) ∧
    ∀ g ≤ text.length / 5, ∃ t, runSteps (1 + g) (s.offer (textScript text)) = .next t ∧ TextPrefixInv text g t

/-- R139: for every byte sequence, sending `RawScript` from any state closes the message with a verdict equal to
`Transform` of the sequence and with the carried state the rule lists; after a division by zero the output is that of
the Windows before the failing one, and the state is the same as without the `WIN`s after it. For a text that decodes, its `TextScript` and the `RawScript` of the
decoded bytes end with the same verdict, `prev`, `idx` and `lastq`. -/
def Obligations.RawScriptComputesTransform : Prop :=
  (∀ (raw : List Byte) (s : State),
    ∃ t, runSteps (rawScript raw).length (s.offer (rawScript raw)) = .next t ∧ t.input = [] ∧
      t.done = true ∧ t.verdict = some (transform raw) ∧
      (∀ out, transform raw = .ok out →
        t.idx = BitVec.ofNat 32 out.length ∧ t.prev = ((out.getLast?.map (·.setWidth 32)).getD 1#32) ∧
        (out ≠ [] → t.lastq.extractLsb' 0 8 = t.prev.extractLsb' 0 8) ∧ t.pos = 0#64 ∧ t.holdV = false) ∧
      (∀ k i b, transform raw = .err k i b → k = .divisionByZero ∧ t.prev = 0#32 ∧ t.idx.toNat = i ∧
        ∃ m < raw.length / 8, i = m % 2 ^ 32 ∧ transform (raw.take (8 * m)) = .ok t.out ∧
          let upToFailing := rawScript (raw.take (8 * (m + 1)))
          runSteps upToFailing.length (s.offer upToFailing) = .next t)) ∧
  ∀ (text raw : List Byte) (s s' : State), text.length < 2 ^ 64 → decodeText text = .ok raw →
    ∃ t t', runSteps (textScript text).length (s.offer (textScript text)) = .next t ∧
      runSteps (rawScript raw).length (s'.offer (rawScript raw)) = .next t' ∧
      t.verdict = t'.verdict ∧ t.prev = t'.prev ∧ t.idx = t'.idx ∧ t.lastq = t'.lastq
end

