-- ==== Sys2Proof/Laws/Bits.lean ====
section
/-! SUPPORT. Concatenation of bit vectors (spec/00_scope.md R10 `a : b`) as arithmetic. -/

namespace Sys2Proof.Laws

/-- The high part of a concatenation is weighted by the low part's width. -/
theorem toNat_append_eq_add {m n : Nat} (x : BitVec m) (y : BitVec n) :
    (x ++ y).toNat = x.toNat * 2 ^ n + y.toNat := by
  rw [BitVec.toNat_append, ← Nat.shiftLeft_add_eq_or_of_lt y.isLt, Nat.shiftLeft_eq]

end Sys2Proof.Laws
end

