-- ==== Sys2Proof/Laws/Operands.lean ====
section
/-! SUPPORT. The data encodings and the two pure functions `DecodeGroup` and `TStep`: each says once what it can answer. -/

namespace Sys2Proof.Machine

open Sys2Proof.Laws (toNat_append_eq_add)

@[simp] theorem Config.radix_eq : Config.radix = 85 := rfl
@[simp] theorem Config.groupSyms_eq : Config.groupSyms = 5 := rfl
@[simp] theorem Config.maxGroupValue_eq : Config.maxGroupValue = 4294967295 := rfl
@[simp] theorem Config.prevInit_eq : Config.prevInit = 1#32 := rfl
@[simp] theorem Config.idxInit_eq : Config.idxInit = 0#32 := rfl

theorem alphabet_length : alphabet.length = 85 := by decide

/-- A digit is below the radix (R64). -/
theorem digit?_lt {code : Byte} {d : Nat} (h : digit? code = some d) : d < 85 := by
  rw [digit?, List.idxOf?, List.findIdx?_eq_some_iff_getElem] at h
  obtain ⟨hlt, -⟩ := h
  exact alphabet_length ▸ hlt

/-- The weights of R42 written out. -/
theorem groupValue_eq (d0 d1 d2 d3 d4 : Nat) :
    groupValue d0 d1 d2 d3 d4 = d0 * 52200625 + d1 * 614125 + d2 * 7225 + d3 * 85 + d4 := by
  simp [groupValue]

/-- `DecodeGroup` on five valid symbols (R80). -/
theorem decodeGroup_valid {s0 s1 s2 s3 s4 : Byte} {d0 d1 d2 d3 d4 : Nat} (h0 : digit? s0 = some d0)
    (h1 : digit? s1 = some d1) (h2 : digit? s2 = some d2) (h3 : digit? s3 = some d3) (h4 : digit? s4 = some d4) :
    decodeGroup s0 s1 s2 s3 s4 = groupOfValue (groupValue d0 d1 d2 d3 d4) := by
  simp [decodeGroup, h0, h1, h2, h3, h4]

theorem validSymbol_iff {code : Byte} : validSymbol code = true ↔ ∃ d, digit? code = some d := by
  simp [validSymbol, Option.isSome_iff_exists]

theorem validSymbol_eq_false {code : Byte} : validSymbol code = false ↔ digit? code = none := by
  simp [validSymbol]

/-- The bytes of R43 packed as R23 says are the byte-reversed value. -/
theorem packGroup_groupByte (v : Word32) :
    packGroup (groupByte v 0) (groupByte v 1) (groupByte v 2) (groupByte v 3) = bswap32 v := by
  simp only [packGroup, groupByte, bswap32, Nat.reduceMul, Nat.reduceSub]

/-- R44 as a number: byte `j` of a Window weighs 2^(8j). -/
theorem windowWord_toNat (b0 b1 b2 b3 b4 b5 b6 b7 : Byte) :
    (windowWord b0 b1 b2 b3 b4 b5 b6 b7).toNat =
      b0.toNat + 2 ^ 8 * (b1.toNat + 2 ^ 8 * (b2.toNat + 2 ^ 8 * (b3.toNat + 2 ^ 8 * (b4.toNat + 2 ^ 8 *
        (b5.toNat + 2 ^ 8 * (b6.toNat + 2 ^ 8 * b7.toNat)))))) := by
  simp only [windowWord, toNat_append_eq_add]
  ring

/-- R71 and R44 agree: two packed groups joined are the Word of their eight bytes. -/
theorem joinGroups_packGroup (a0 a1 a2 a3 b0 b1 b2 b3 : Byte) :
    joinGroups (packGroup a0 a1 a2 a3) (packGroup b0 b1 b2 b3) = windowWord a0 a1 a2 a3 b0 b1 b2 b3 := by
  apply BitVec.eq_of_toNat_eq
  simp only [joinGroups, packGroup, windowWord, toNat_append_eq_add]
  ring

@[simp] theorem widenByte_toNat (b : Byte) : (widenByte b).toNat = b.toNat := by
  simp [widenByte, BitVec.toNat_setWidth]; omega

theorem widenByte_low (b : Byte) : (widenByte b).extractLsb' 0 8 = b := by
  simp only [widenByte]
  ext i hi
  simp [hi]; omega

/-- What `TStep` answers where it divides: the byte is the low byte of the quotient, and the divisor is not 0. -/
theorem tStep_ok {word : Word64} {prev idx : Word32} {b : Byte} {q : Word32} (h : tStep word prev idx = .ok b q) :
    divisorOf prev ≠ 0#32 ∧ q = mixedOf word idx / divisorOf prev ∧ b = q.extractLsb' 0 8 := by
  unfold tStep at h
  split at h
  · cases h
  · cases h; exact ⟨‹_›, rfl, rfl⟩

theorem tStep_divZero {word : Word64} {prev idx : Word32} : tStep word prev idx = .divZero ↔ divisorOf prev = 0#32 := by
  unfold tStep
  split <;> simp_all

/-- A carried byte doubles without a wrap, so its divisor is 0 for the byte 0 alone (R101 (b)). -/
theorem divisorOf_eq_zero {prev : Word32} (hb : prev.toNat ≤ 255) : divisorOf prev = 0#32 ↔ prev = 0#32 := by
  simp only [divisorOf, ← BitVec.toNat_inj, BitVec.toNat_mul, BitVec.toNat_ofNat]
  omega

end Sys2Proof.Machine
end

