-- ==== Sys2Proof/Laws/State.lean ====
section
/-! SUPPORT. One lemma per field per state update: what each update leaves in each field, true by `rfl`. -/

namespace Sys2Proof.Machine

/-! `raise` (R11, R153) writes the three error fields. -/

@[simp] theorem State.raise_prev (s : State) (k : ErrKind) (p : Word64) (b : Byte) : (s.raise k p b).prev = s.prev := rfl
@[simp] theorem State.raise_idx (s : State) (k : ErrKind) (p : Word64) (b : Byte) : (s.raise k p b).idx = s.idx := rfl
@[simp] theorem State.raise_hold (s : State) (k : ErrKind) (p : Word64) (b : Byte) : (s.raise k p b).hold = s.hold := rfl
@[simp] theorem State.raise_holdV (s : State) (k : ErrKind) (p : Word64) (b : Byte) : (s.raise k p b).holdV = s.holdV := rfl
@[simp] theorem State.raise_pos (s : State) (k : ErrKind) (p : Word64) (b : Byte) : (s.raise k p b).pos = s.pos := rfl
@[simp] theorem State.raise_done (s : State) (k : ErrKind) (p : Word64) (b : Byte) : (s.raise k p b).done = s.done := rfl
@[simp] theorem State.raise_err (s : State) (k : ErrKind) (p : Word64) (b : Byte) : (s.raise k p b).err = k := rfl
@[simp] theorem State.raise_errPos (s : State) (k : ErrKind) (p : Word64) (b : Byte) : (s.raise k p b).errPos = p := rfl
@[simp] theorem State.raise_errByte (s : State) (k : ErrKind) (p : Word64) (b : Byte) : (s.raise k p b).errByte = b := rfl
@[simp] theorem State.raise_lastq (s : State) (k : ErrKind) (p : Word64) (b : Byte) : (s.raise k p b).lastq = s.lastq := rfl
@[simp] theorem State.raise_out (s : State) (k : ErrKind) (p : Word64) (b : Byte) : (s.raise k p b).out = s.out := rfl
@[simp] theorem State.raise_input (s : State) (k : ErrKind) (p : Word64) (b : Byte) : (s.raise k p b).input = s.input := rfl

/-! `restart` (R120, R175) leaves only the host's inputs. -/

@[simp] theorem State.restart_prev (s : State) : (s.restart).prev = Config.prevInit := rfl
@[simp] theorem State.restart_idx (s : State) : (s.restart).idx = Config.idxInit := rfl
@[simp] theorem State.restart_hold (s : State) : (s.restart).hold = 0#32 := rfl
@[simp] theorem State.restart_holdV (s : State) : (s.restart).holdV = false := rfl
@[simp] theorem State.restart_pos (s : State) : (s.restart).pos = 0#64 := rfl
@[simp] theorem State.restart_done (s : State) : (s.restart).done = false := rfl
@[simp] theorem State.restart_err (s : State) : (s.restart).err = .none := rfl
@[simp] theorem State.restart_errPos (s : State) : (s.restart).errPos = 0#64 := rfl
@[simp] theorem State.restart_errByte (s : State) : (s.restart).errByte = 0#8 := rfl
@[simp] theorem State.restart_lastq (s : State) : (s.restart).lastq = 0#32 := rfl
@[simp] theorem State.restart_out (s : State) : (s.restart).out = [] := rfl
@[simp] theorem State.restart_input (s : State) : (s.restart).input = s.input := rfl

/-! `emit` (R11) appends to the output record. -/

@[simp] theorem State.emit_prev (s : State) (b : Byte) : (s.emit b).prev = s.prev := rfl
@[simp] theorem State.emit_idx (s : State) (b : Byte) : (s.emit b).idx = s.idx := rfl
@[simp] theorem State.emit_hold (s : State) (b : Byte) : (s.emit b).hold = s.hold := rfl
@[simp] theorem State.emit_holdV (s : State) (b : Byte) : (s.emit b).holdV = s.holdV := rfl
@[simp] theorem State.emit_pos (s : State) (b : Byte) : (s.emit b).pos = s.pos := rfl
@[simp] theorem State.emit_done (s : State) (b : Byte) : (s.emit b).done = s.done := rfl
@[simp] theorem State.emit_err (s : State) (b : Byte) : (s.emit b).err = s.err := rfl
@[simp] theorem State.emit_errPos (s : State) (b : Byte) : (s.emit b).errPos = s.errPos := rfl
@[simp] theorem State.emit_errByte (s : State) (b : Byte) : (s.emit b).errByte = s.errByte := rfl
@[simp] theorem State.emit_lastq (s : State) (b : Byte) : (s.emit b).lastq = s.lastq := rfl
@[simp] theorem State.emit_out (s : State) (b : Byte) : (s.emit b).out = s.out ++ [b] := rfl
@[simp] theorem State.emit_input (s : State) (b : Byte) : (s.emit b).input = s.input := rfl

/-! `countGroup` (R24) moves `pos`. -/

@[simp] theorem State.countGroup_prev (s : State) : (s.countGroup).prev = s.prev := rfl
@[simp] theorem State.countGroup_idx (s : State) : (s.countGroup).idx = s.idx := rfl
@[simp] theorem State.countGroup_hold (s : State) : (s.countGroup).hold = s.hold := rfl
@[simp] theorem State.countGroup_holdV (s : State) : (s.countGroup).holdV = s.holdV := rfl
@[simp] theorem State.countGroup_pos (s : State) : (s.countGroup).pos = s.pos + BitVec.ofNat 64 Config.groupSyms := rfl
@[simp] theorem State.countGroup_done (s : State) : (s.countGroup).done = s.done := rfl
@[simp] theorem State.countGroup_err (s : State) : (s.countGroup).err = s.err := rfl
@[simp] theorem State.countGroup_errPos (s : State) : (s.countGroup).errPos = s.errPos := rfl
@[simp] theorem State.countGroup_errByte (s : State) : (s.countGroup).errByte = s.errByte := rfl
@[simp] theorem State.countGroup_lastq (s : State) : (s.countGroup).lastq = s.lastq := rfl
@[simp] theorem State.countGroup_out (s : State) : (s.countGroup).out = s.out := rfl
@[simp] theorem State.countGroup_input (s : State) : (s.countGroup).input = s.input := rfl

/-! `holdGroup` (R85) fills the Window assembler. -/

@[simp] theorem State.holdGroup_prev (s : State) (d : Word32) : (s.holdGroup d).prev = s.prev := rfl
@[simp] theorem State.holdGroup_idx (s : State) (d : Word32) : (s.holdGroup d).idx = s.idx := rfl
@[simp] theorem State.holdGroup_hold (s : State) (d : Word32) : (s.holdGroup d).hold = d := rfl
@[simp] theorem State.holdGroup_holdV (s : State) (d : Word32) : (s.holdGroup d).holdV = true := rfl
@[simp] theorem State.holdGroup_pos (s : State) (d : Word32) : (s.holdGroup d).pos = s.pos := rfl
@[simp] theorem State.holdGroup_done (s : State) (d : Word32) : (s.holdGroup d).done = s.done := rfl
@[simp] theorem State.holdGroup_err (s : State) (d : Word32) : (s.holdGroup d).err = s.err := rfl
@[simp] theorem State.holdGroup_errPos (s : State) (d : Word32) : (s.holdGroup d).errPos = s.errPos := rfl
@[simp] theorem State.holdGroup_errByte (s : State) (d : Word32) : (s.holdGroup d).errByte = s.errByte := rfl
@[simp] theorem State.holdGroup_lastq (s : State) (d : Word32) : (s.holdGroup d).lastq = s.lastq := rfl
@[simp] theorem State.holdGroup_out (s : State) (d : Word32) : (s.holdGroup d).out = s.out := rfl
@[simp] theorem State.holdGroup_input (s : State) (d : Word32) : (s.holdGroup d).input = s.input := rfl

/-! `dropHold` (R23) empties the Window assembler. -/

@[simp] theorem State.dropHold_prev (s : State) : (s.dropHold).prev = s.prev := rfl
@[simp] theorem State.dropHold_idx (s : State) : (s.dropHold).idx = s.idx := rfl
@[simp] theorem State.dropHold_hold (s : State) : (s.dropHold).hold = 0#32 := rfl
@[simp] theorem State.dropHold_holdV (s : State) : (s.dropHold).holdV = false := rfl
@[simp] theorem State.dropHold_pos (s : State) : (s.dropHold).pos = s.pos := rfl
@[simp] theorem State.dropHold_done (s : State) : (s.dropHold).done = s.done := rfl
@[simp] theorem State.dropHold_err (s : State) : (s.dropHold).err = s.err := rfl
@[simp] theorem State.dropHold_errPos (s : State) : (s.dropHold).errPos = s.errPos := rfl
@[simp] theorem State.dropHold_errByte (s : State) : (s.dropHold).errByte = s.errByte := rfl
@[simp] theorem State.dropHold_lastq (s : State) : (s.dropHold).lastq = s.lastq := rfl
@[simp] theorem State.dropHold_out (s : State) : (s.dropHold).out = s.out := rfl
@[simp] theorem State.dropHold_input (s : State) : (s.dropHold).input = s.input := rfl

/-! `close` (R121) sets `done`. -/

@[simp] theorem State.close_prev (s : State) : (s.close).prev = s.prev := rfl
@[simp] theorem State.close_idx (s : State) : (s.close).idx = s.idx := rfl
@[simp] theorem State.close_hold (s : State) : (s.close).hold = s.hold := rfl
@[simp] theorem State.close_holdV (s : State) : (s.close).holdV = s.holdV := rfl
@[simp] theorem State.close_pos (s : State) : (s.close).pos = s.pos := rfl
@[simp] theorem State.close_done (s : State) : (s.close).done = true := rfl
@[simp] theorem State.close_err (s : State) : (s.close).err = s.err := rfl
@[simp] theorem State.close_errPos (s : State) : (s.close).errPos = s.errPos := rfl
@[simp] theorem State.close_errByte (s : State) : (s.close).errByte = s.errByte := rfl
@[simp] theorem State.close_lastq (s : State) : (s.close).lastq = s.lastq := rfl
@[simp] theorem State.close_out (s : State) : (s.close).out = s.out := rfl
@[simp] theorem State.close_input (s : State) : (s.close).input = s.input := rfl

/-! `advance` (R104) emits and moves the carried state. -/

@[simp] theorem State.advance_prev (s : State) (b : Byte) (q : Word32) : (s.advance b q).prev = widenByte b := rfl
@[simp] theorem State.advance_idx (s : State) (b : Byte) (q : Word32) : (s.advance b q).idx = s.idx + 1#32 := rfl
@[simp] theorem State.advance_hold (s : State) (b : Byte) (q : Word32) : (s.advance b q).hold = s.hold := rfl
@[simp] theorem State.advance_holdV (s : State) (b : Byte) (q : Word32) : (s.advance b q).holdV = s.holdV := rfl
@[simp] theorem State.advance_pos (s : State) (b : Byte) (q : Word32) : (s.advance b q).pos = s.pos := rfl
@[simp] theorem State.advance_done (s : State) (b : Byte) (q : Word32) : (s.advance b q).done = s.done := rfl
@[simp] theorem State.advance_err (s : State) (b : Byte) (q : Word32) : (s.advance b q).err = s.err := rfl
@[simp] theorem State.advance_errPos (s : State) (b : Byte) (q : Word32) : (s.advance b q).errPos = s.errPos := rfl
@[simp] theorem State.advance_errByte (s : State) (b : Byte) (q : Word32) : (s.advance b q).errByte = s.errByte := rfl
@[simp] theorem State.advance_lastq (s : State) (b : Byte) (q : Word32) : (s.advance b q).lastq = q := rfl
@[simp] theorem State.advance_out (s : State) (b : Byte) (q : Word32) : (s.advance b q).out = s.out ++ [b] := rfl
@[simp] theorem State.advance_input (s : State) (b : Byte) (q : Word32) : (s.advance b q).input = s.input := rfl

end Sys2Proof.Machine
end

