-- ==== Sys2Proof/Laws/Ops.lean ====
section
/-! SUPPORT. One lemma per shared operation that says everything it can do, and one that says everything an executed
command can do. -/

namespace Sys2Proof.Machine

theorem State.takeInput_none {s : State} : s.takeInput = none ↔ s.input = [] := by
  cases h : s.input <;> simp [State.takeInput, h]

theorem State.takeInput_some {s s' : State} {i : Input} :
    s.takeInput = some (i, s') ↔ ∃ rest, s.input = i :: rest ∧ s' = { s with input := rest } := by
  cases h : s.input <;> simp [State.takeInput, h, eq_comm]

/-- R104: a latched division by zero, or one byte and the advance. -/
theorem State.xformStep_cases (s : State) (w : Word64) :
    (tStep w s.prev s.idx = .divZero ∧ s.xformStep w = s.raise .divisionByZero (s.idx.setWidth 64) 0#8) ∨
    ∃ b q, tStep w s.prev s.idx = .ok b q ∧ s.xformStep w = s.advance b q := by
  unfold State.xformStep
  cases tStep w s.prev s.idx <;> simp

/-- R85: the first group of a pair waits, the second completes a Window. -/
theorem State.assemble_cases (s : State) (d : Word32) :
    (s.holdV = false ∧ s.assemble d = s.holdGroup d) ∨
    (s.holdV = true ∧ s.assemble d = s.dropHold.xformStep (joinGroups s.hold d)) := by
  cases h : s.holdV <;> simp [State.assemble, h]

theorem ErrKind.isDecodeError_iff {k : ErrKind} : k.isDecodeError = true ↔ k = .invalidByte ∨ k = .invalidChunk := by
  simp [ErrKind.isDecodeError]

/-- R85: a group changes nothing, or latches a decode error over a kind that is none, or reaches the assembler with no
error latched. -/
theorem State.groupEffect_cases (s : State) (r : GroupResult) :
    (s.err ≠ .none ∧ s.groupEffect r = s) ∨
    (∃ k b, r = .badByte k b ∧ s.err.isDecodeError = false ∧
      s.groupEffect r = s.raise .invalidByte (s.pos + BitVec.ofNat 64 k.val) b) ∨
    (r = .badChunk ∧ s.err.isDecodeError = false ∧ s.groupEffect r = s.raise .invalidChunk s.pos 0#8) ∨
    (∃ b0 b1 b2 b3, r = .ok b0 b1 b2 b3 ∧ s.err = .none ∧ s.groupEffect r = s.assemble (packGroup b0 b1 b2 b3)) := by
  unfold State.groupEffect
  cases hd : s.err.isDecodeError with
  | true => exact .inl ⟨fun h => by simp [h, ErrKind.isDecodeError] at hd, by simp⟩
  | false =>
    cases r with
    | badByte k b => exact .inr (.inl ⟨k, b, by simp⟩)
    | badChunk => exact .inr (.inr (.inl (by simp)))
    | ok b0 b1 b2 b3 =>
      by_cases he : s.err = .none
      · exact .inr (.inr (.inr ⟨b0, b1, b2, b3, by simp [he]⟩))
      · exact .inl (by simp [he])

/-- R121: an illegal command, a wrong length, or nothing. -/
theorem State.tailEffect_cases (s : State) (n : BitVec 3) :
    (5 ≤ n.toNat ∧ s.tailEffect n = s.raise .illegalCommand s.pos (n.setWidth 8)) ∨
    (n ≠ 0#3 ∧ n.toNat ≤ 4 ∧ s.tailEffect n = s.raise .invalidLength (s.pos + n.setWidth 64) 0#8) ∨
    (n = 0#3 ∧ s.tailEffect n = s) := by
  unfold State.tailEffect
  by_cases h5 : 5 ≤ n.toNat
  · exact .inl (by simp [h5])
  · by_cases h0 : n = 0#3
    · exact .inr (.inr (by simp [h0]))
    · exact .inr (.inl (by simp [h5, h0]; omega))

/-- Everything an executed command can do, its guards included: restart; nothing; one transform step with no error
latched (`WIN`); a counted group (`GRP`); a closed message (`END`). -/
theorem exec_cases {i : Instr} {s t : State} (h : exec i s = .next t) :
    (i = .init ∧ t = s.restart) ∨
    (i ≠ .init ∧ (s.done = true ∨ (∃ w, i = .win w) ∧ s.err ≠ .none) ∧ t = s) ∨
    (∃ w, i = .win w ∧ s.done = false ∧ s.err = .none ∧ t = s.xformStep w) ∨
    (∃ s0 s1 s2 s3 s4, i = .grp s0 s1 s2 s3 s4 ∧ s.done = false ∧
      t = (s.groupEffect (decodeGroup s0 s1 s2 s3 s4)).countGroup) ∨
    (∃ n, i = .endMsg n ∧ s.done = false ∧ t = (s.tailEffect n).dropHold.close) := by
  cases i with
  | init => exact .inl ⟨rfl, by simpa [exec, execInit] using h.symm⟩
  | grp s0 s1 s2 s3 s4 =>
    cases hd : s.done <;> simp [exec, execGrp, hd] at h
    · exact .inr (.inr (.inr (.inl ⟨s0, s1, s2, s3, s4, rfl, rfl, h.symm⟩)))
    · exact .inr (.inl ⟨by simp, .inl rfl, h.symm⟩)
  | win w =>
    cases hd : s.done <;> simp [exec, execWin, hd] at h
    · by_cases he : s.err = .none <;> simp [he] at h
      · exact .inr (.inr (.inl ⟨w, rfl, rfl, he, h.symm⟩))
      · exact .inr (.inl ⟨by simp, .inr ⟨⟨w, rfl⟩, he⟩, h.symm⟩)
    · exact .inr (.inl ⟨by simp, .inl rfl, h.symm⟩)
  | endMsg n =>
    cases hd : s.done <;> simp [exec, execEnd, hd] at h
    · exact .inr (.inr (.inr (.inr ⟨n, rfl, rfl, h.symm⟩)))
    · exact .inr (.inl ⟨by simp, .inl rfl, h.symm⟩)

end Sys2Proof.Machine
end

