-- ==== Sys2Proof/Laws/PerInstr.lean ====
section
/-! SUPPORT. Two facts about the encoding of every command, one lemma per constructor: the word carries the row's `op`,
and the ignored payload bits assemble as 0. -/

namespace Sys2Proof.Laws

/-- A bit of a word built from its two fields (R60). -/
theorem cmdWord_getLsbD (op : BitVec 2) (payload : Word64) (k : Nat) :
    (cmdWord op payload).getLsbD k = if k < 64 then payload.getLsbD k else op.getLsbD (k - 64) := by
  unfold cmdWord
  rw [BitVec.getLsbD_append]

theorem opField_cmdWord (op : BitVec 2) (payload : Word64) : opField (cmdWord op payload) = op := by
  ext k hk
  simp only [opField, BitVec.getElem_extractLsb', cmdWord_getLsbD]
  simp [BitVec.getLsbD_eq_getElem hk]

theorem payloadField_cmdWord (op : BitVec 2) (payload : Word64) : payloadField (cmdWord op payload) = payload := by
  ext k hk
  simp only [payloadField, BitVec.getElem_extractLsb', cmdWord_getLsbD]
  simp [hk]

/-- Encoding puts the row's `op` of spec/30_encoding.md R61 in bits 65:64. -/
def OpcodeRow.Statement (i : Instr) : Prop :=
  opField (encode i) = match i with
    | .init => 0#2
    | .grp _ _ _ _ _ => 1#2
    | .win _ => 2#2
    | .endMsg _ => 3#2

theorem OpcodeRow.init : OpcodeRow.Statement .init := opField_cmdWord _ _

theorem OpcodeRow.grp (s0 s1 s2 s3 s4 : Byte) : OpcodeRow.Statement (.grp s0 s1 s2 s3 s4) := opField_cmdWord _ _

theorem OpcodeRow.win (word : Word64) : OpcodeRow.Statement (.win word) := opField_cmdWord _ _

theorem OpcodeRow.endMsg (ntail : BitVec 3) : OpcodeRow.Statement (.endMsg ntail) := opField_cmdWord _ _

/-- R74: "Ignored payload bits assemble as 0". -/
def IgnoredBitsAssembleAsZero.Statement (i : Instr) : Prop :=
  encode i &&& ignoredBits i = 0#66

theorem IgnoredBitsAssembleAsZero.init : IgnoredBitsAssembleAsZero.Statement .init := rfl

theorem IgnoredBitsAssembleAsZero.grp (s0 s1 s2 s3 s4 : Byte) :
    IgnoredBitsAssembleAsZero.Statement (.grp s0 s1 s2 s3 s4) := by
  have hmask : ignoredBits (.grp s0 s1 s2 s3 s4) = 0#2 ++ BitVec.allOnes 24 ++ 0#40 := rfl
  have hword : encode (.grp s0 s1 s2 s3 s4) = 1#2 ++ 0#24 ++ (s4 ++ s3 ++ s2 ++ s1 ++ s0) := by
    apply BitVec.eq_of_toNat_eq
    simp only [encode, cmdWord, toNat_append_eq_add]
    ring
  rw [IgnoredBitsAssembleAsZero.Statement, hmask, hword, BitVec.and_append, BitVec.and_append]
  simp

theorem IgnoredBitsAssembleAsZero.win (word : Word64) : IgnoredBitsAssembleAsZero.Statement (.win word) := by
  simp [IgnoredBitsAssembleAsZero.Statement, ignoredBits]

theorem IgnoredBitsAssembleAsZero.endMsg (ntail : BitVec 3) : IgnoredBitsAssembleAsZero.Statement (.endMsg ntail) := by
  have hmask : ignoredBits (.endMsg ntail) = 0#2 ++ (BitVec.allOnes 61 ++ 0#3) := rfl
  rw [IgnoredBitsAssembleAsZero.Statement, hmask, encode, cmdWord, BitVec.and_append, BitVec.and_append]
  simp

end Sys2Proof.Laws
end

