-- ==== Sys2Proof/Laws/Run.lean ====
section
/-! SUPPORT. What one step can do, what every command leaves alone, and how steps compose. -/

namespace Sys2Proof.Machine

@[simp] theorem State.xformStep_pos (s : State) (w : Word64) : (s.xformStep w).pos = s.pos := by
  obtain ⟨-, h⟩ | ⟨b, q, -, h⟩ := s.xformStep_cases w <;> simp [h]

@[simp] theorem State.xformStep_done (s : State) (w : Word64) : (s.xformStep w).done = s.done := by
  obtain ⟨-, h⟩ | ⟨b, q, -, h⟩ := s.xformStep_cases w <;> simp [h]

@[simp] theorem State.xformStep_hold (s : State) (w : Word64) : (s.xformStep w).hold = s.hold := by
  obtain ⟨-, h⟩ | ⟨b, q, -, h⟩ := s.xformStep_cases w <;> simp [h]

@[simp] theorem State.xformStep_holdV (s : State) (w : Word64) : (s.xformStep w).holdV = s.holdV := by
  obtain ⟨-, h⟩ | ⟨b, q, -, h⟩ := s.xformStep_cases w <;> simp [h]

@[simp] theorem State.xformStep_input (s : State) (w : Word64) : (s.xformStep w).input = s.input := by
  obtain ⟨-, h⟩ | ⟨b, q, -, h⟩ := s.xformStep_cases w <;> simp [h]

@[simp] theorem State.groupEffect_pos (s : State) (r : GroupResult) : (s.groupEffect r).pos = s.pos := by
  obtain ⟨-, h⟩ | ⟨_, _, -, -, h⟩ | ⟨-, -, h⟩ | ⟨b0, b1, b2, b3, -, -, h⟩ := s.groupEffect_cases r <;> simp [h]
  obtain ⟨-, h⟩ | ⟨-, h⟩ := s.assemble_cases (packGroup b0 b1 b2 b3) <;> simp [h]

@[simp] theorem State.groupEffect_done (s : State) (r : GroupResult) : (s.groupEffect r).done = s.done := by
  obtain ⟨-, h⟩ | ⟨_, _, -, -, h⟩ | ⟨-, -, h⟩ | ⟨b0, b1, b2, b3, -, -, h⟩ := s.groupEffect_cases r <;> simp [h]
  obtain ⟨-, h⟩ | ⟨-, h⟩ := s.assemble_cases (packGroup b0 b1 b2 b3) <;> simp [h]

@[simp] theorem State.groupEffect_input (s : State) (r : GroupResult) : (s.groupEffect r).input = s.input := by
  obtain ⟨-, h⟩ | ⟨_, _, -, -, h⟩ | ⟨-, -, h⟩ | ⟨b0, b1, b2, b3, -, -, h⟩ := s.groupEffect_cases r <;> simp [h]
  obtain ⟨-, h⟩ | ⟨-, h⟩ := s.assemble_cases (packGroup b0 b1 b2 b3) <;> simp [h]

@[simp] theorem State.tailEffect_pos (s : State) (n : BitVec 3) : (s.tailEffect n).pos = s.pos := by
  obtain ⟨-, h⟩ | ⟨-, -, h⟩ | ⟨-, h⟩ := s.tailEffect_cases n <;> simp [h]

@[simp] theorem State.tailEffect_input (s : State) (n : BitVec 3) : (s.tailEffect n).input = s.input := by
  obtain ⟨-, h⟩ | ⟨-, -, h⟩ | ⟨-, h⟩ := s.tailEffect_cases n <;> simp [h]

/-- Every command completes (R184). -/
theorem exec_completes (i : Instr) (s : State) : ∃ t, exec i s = .next t := by
  cases i <;> simp only [exec, execInit, execGrp, execWin, execEnd] <;> repeat' split
  all_goals exact ⟨_, rfl⟩

/-- No command touches what the host has yet to send. -/
theorem exec_input {i : Instr} {s t : State} (h : exec i s = .next t) : t.input = s.input := by
  obtain ⟨-, rfl⟩ | ⟨-, -, rfl⟩ | ⟨w, -, -, -, rfl⟩ | ⟨_, _, _, _, _, -, -, rfl⟩ | ⟨_, -, -, rfl⟩ := exec_cases h <;> simp

/-- Everything a step can do: nothing is offered and the state holds, the reset input restarts the block, or a command
is executed with its word taken from the channel. -/
theorem step_cases {s t : State} (h : step s = .next t) :
    (s.input = [] ∧ t = s) ∨
    (∃ rest, s.input = .rst :: rest ∧ t = State.restart { s with input := rest }) ∨
    (∃ w rest, s.input = .cmd w :: rest ∧ exec (decode w) { s with input := rest } = .next t) := by
  unfold step State.takeInput at h
  match hi : s.input with
  | [] => rw [hi] at h; cases h; exact .inl ⟨rfl, rfl⟩
  | .rst :: rest => rw [hi] at h; cases h; exact .inr (.inl ⟨rest, rfl, rfl⟩)
  | .cmd w :: rest => rw [hi] at h; exact .inr (.inr ⟨w, rest, rfl, h⟩)

theorem runSteps_zero (s : State) : runSteps 0 s = .next s := rfl

theorem runSteps_succ {n : Nat} {s t : State} (h : step s = .next t) : runSteps (n + 1) s = runSteps n t := by
  simp only [runSteps, Host.Core.run]
  rw [show Sys2Proof.core.step s = .next t from h]

/-- R140 and R138 agree: a message has OutputBytes exactly when its verdict is `Ok` of them. -/
theorem State.outputBytes_eq_some {s : State} {bytes : List Byte} :
    s.outputBytes = some bytes ↔ s.verdict = some (.ok bytes) := by
  cases hd : s.done <;> by_cases he : s.err = .none <;> simp [State.outputBytes, State.verdict, Block.fault, hd, he]

end Sys2Proof.Machine
end

