-- ==== Sys2Proof/WellFormed.lean ====
section
/-! DEFINITION. Which commands are legal encodings (spec/30_encoding.md R68, R69). The widths of all operands are in
their types; the one check left is `END`'s `ntail`. A command that fails it is still a command: the decoder reads it
and the machine gives it the effect of R121 (`IllegalCommand`). No meaning assumes this check. -/

namespace Sys2Proof

/-- R68: `ntail` has the legal values 0 to 4; R69 (c): 5, 6 and 7 are the one illegal encoding. -/
def Instr.wellFormed : Instr → Bool
  | .init => true
  | .grp _ _ _ _ _ => true
  | .win _ => true
  | .endMsg ntail => decide (ntail.toNat ≤ 4)

/-- A script (R12: a finite sequence of commands) all of whose commands are legal encodings. -/
def wellFormedScript (script : List Instr) : Bool :=
  script.all Instr.wellFormed

end Sys2Proof
end

