-- ==== Sys2Proof/Tests/Slice0.lean ====
section
/-! SUPPORT. Tests. Every expected value is the spec's: spec/95_test_vectors.md by the row or program each comment names,
or the worked example of the rule named. The second part shows, for every statement that has hypotheses, a concrete
state and operands that meet them. -/

namespace Sys2Proof.Tests

open Sys2Proof.Machine

/-- The state a step answers. -/
def after : Host.Outcome State Fault Refusal → Option State
  | .next s => some s
  | .fault _ => none
  | .refused _ => none

/-- The symbols of `ag6Pw`, and of `XWf` followed by the left brace and `g` (R63, V1). -/
def symbolsA : List Byte := [0x61#8, 0x67#8, 0x36#8, 0x50#8, 0x77#8]
def symbolsB : List Byte := [0x58#8, 0x57#8, 0x66#8, 0x7B#8, 0x67#8]

/-- The Window of V1 and of section 3, T3. -/
def windowV1 : List Byte := [0x1F#8, 0xB3#8, 0xD8#8, 0x1F#8, 0xB9#8, 0xB3#8, 0xD8#8, 0x1F#8]

/-- Section 3, T7: two Windows, output `41 00`. -/
def bytesT7 : List Byte :=
  [0x93#8, 0x11#8, 0x11#8, 0x11#8, 0x11#8, 0x11#8, 0x11#8, 0x11#8] ++
  [0x23#8, 0xA0#8, 0x22#8, 0x22#8, 0x22#8, 0x22#8, 0x22#8, 0x22#8]

/-- Section 3, T8: T7 and a third Window, which meets the divisor 0. -/
def bytesT8 : List Byte := bytesT7 ++ [0x31#8, 0x33#8, 0x33#8, 0x33#8, 0x33#8, 0x33#8, 0x33#8, 0x33#8]

/-- Program P3, its first 30 symbols: T8, armored. -/
def symbolsT8 : List Byte :=
  [0x4C#8, 0x6D#8, 0x58#8, 0x78#8, 0x73#8] ++
  [0x35#8, 0x46#8, 0x6B#8, 0x50#8, 0x21#8] ++
  [0x62#8, 0x43#8, 0x6C#8, 0x6B#8, 0x38#8] ++
  [0x61#8, 0x25#8, 0x46#8, 0x69#8, 0x50#8] ++
  [0x66#8, 0x2F#8, 0x37#8, 0x51#8, 0x77#8] ++
  [0x67#8, 0x43#8, 0x5A#8, 0x2A#8, 0x79#8]

/-- C4: the state after a 0 byte. -/
def afterZero : State := { State.reset with prev := 0#32, idx := 2#32, out := [0x41#8, 0#8], lastq := 0x100#32 }

/-- C5: the state with `DivisionByZero` latched, `pos = 30`. -/
def latchedDiv : State := { afterZero with err := .divisionByZero, errPos := 2#64, pos := 30#64 }

/-- C1: the state after the first group of V1. -/
def afterC1 : State := { State.reset with hold := 0x1FD8B31F#32, holdV := true, pos := 5#64 }

/-! Decoding: words written out from R62, R63, R67, R68 and section 4 of the vectors. -/

-- C17, C19
theorem test_decode_init : decode 0x00000000000000000#66 = .init ∧ decode 0x0FFFFFFFFFFFFFFFF#66 = .init := by decide
-- R63's example, C18
theorem test_decode_grp : decode 0x10000007750366761#66 = .grp 0x61#8 0x67#8 0x36#8 0x50#8 0x77#8 ∧
    decode 0x1FFFFFF7750366761#66 = .grp 0x61#8 0x67#8 0x36#8 0x50#8 0x77#8 := by decide
-- R67's example
theorem test_decode_win : decode 0x21FD8B3B91FD8B31F#66 = .win 0x1FD8B3B91FD8B31F#64 := by decide
-- C11, C13
theorem test_decode_end : decode 0x30000000000000003#66 = .endMsg 3#3 ∧ decode 0x30000000000000005#66 = .endMsg 5#3 := by
  decide
-- R60: 66 bits and no more
theorem test_decode_too_wide : decodeNat (2 ^ 66) = .error .widerThanPort := by decide
theorem test_table_word : decodeTableWord 72 0x30000000000000003 = some (.endMsg 3#3) := by decide
-- C2's word, encoded
theorem test_encode_grp : encode (.grp 0x58#8 0x57#8 0x66#8 0x7B#8 0x67#8) = 0x1000000677B665758#66 := by decide

/-! Well-formedness: each ill-formed term is refused (R69 (c)), the legal ones are not. -/

theorem test_wf_refuses_tail_5 : (Instr.endMsg 5#3).wellFormed = false := by decide
theorem test_wf_refuses_tail_6 : (Instr.endMsg 6#3).wellFormed = false := by decide
theorem test_wf_refuses_tail_7 : (Instr.endMsg 7#3).wellFormed = false := by decide
theorem test_wf_accepts : (Instr.endMsg 4#3).wellFormed = true ∧ Instr.init.wellFormed = true ∧
    (Instr.win 0#64).wellFormed = true ∧ (Instr.grp 0#8 0#8 0#8 0#8 0#8).wellFormed = true := by decide
theorem test_wf_script : wellFormedScript [.init, .endMsg 6#3] = false := by decide

/-! The pure functions. -/

-- section 2: `0rJua`, `%nSc0`, `%nSc1`, two invalid symbols, code above 0x7F
theorem test_decodeGroup : decodeGroup 0x30#8 0x72#8 0x4A#8 0x75#8 0x61#8 = .ok 1#8 2#8 3#8 4#8 ∧
    decodeGroup 0x25#8 0x6E#8 0x53#8 0x63#8 0x30#8 = .ok 0xFF#8 0xFF#8 0xFF#8 0xFF#8 ∧
    decodeGroup 0x25#8 0x6E#8 0x53#8 0x63#8 0x31#8 = .badChunk ∧
    decodeGroup 0x61#8 0x7E#8 0x36#8 0x50#8 0x5F#8 = .badByte 1 0x7E#8 ∧
    decodeGroup 0x30#8 0x30#8 0x80#8 0x30#8 0x30#8 = .badByte 2 0x80#8 := by decide +kernel
-- section 3: the source's example, an idx that cancels, the two unreachable values of prev
theorem test_tStep : tStep 0x1FD8B3B91FD8B31F#64 1#32 0#32 = .ok 0x53#8 0x53#32 ∧
    tStep 0xFFFFFFFF00000000#64 0x53#32 1#32 = .ok 0x90#8 0x018ACB90#32 ∧
    tStep 0x0000000000010000#64 0xFF#32 0xFFFFFFFF#32 = .ok 0xFF#8 0x00807FFF#32 ∧
    tStep 0xFFFFFFFF00000000#64 0x80000000#32 0#32 = .divZero ∧
    tStep 0xFFFFFFFF00000000#64 0x80000001#32 0#32 = .ok 0xFF#8 0x7FFFFFFF#32 := by decide
-- T5 (seven bytes dropped), T7, T8
theorem test_transform : transform (windowV1 ++ [1#8, 2#8, 3#8, 4#8, 5#8, 6#8, 7#8]) = .ok [0x53#8] ∧
    transform bytesT7 = .ok [0x41#8, 0#8] ∧ transform bytesT8 = .err .divisionByZero 2 0#8 := by decide
-- V1, V2, and the order of two errors (`%nSc1ag6P~`)
theorem test_pipeline : pipeline (symbolsA ++ symbolsB) = .ok [0x53#8] ∧
    pipeline (symbolsA ++ [0x58#8, 0x57#8]) = .err .invalidLength 7 0#8 ∧
    pipeline [0x25#8, 0x6E#8, 0x53#8, 0x63#8, 0x31#8, 0x61#8, 0x67#8, 0x36#8, 0x50#8, 0x7E#8] =
      .err .invalidChunk 0 0#8 := by decide +kernel
-- R74: P4's script and the byte forms of `GRP` and `WIN`
theorem test_assemble_text :
    assemble? ['T', 'E', 'X', 'T', ' ', '"', 'a', 'g', '6', 'P', 'w', 'X', 'W', '"'] =
      some [.init, .grp 0x61#8 0x67#8 0x36#8 0x50#8 0x77#8, .endMsg 2#3] := by decide
theorem test_read_grp_bytes :
    readLine? ['G', 'R', 'P', ' ', '0', 'x', '6', '1', ',', '1', '0', '3', ',', '5', '4', ',', '8', '0', ',', '0', 'b',
      '1'] = some (.command (.grp 0x61#8 0x67#8 0x36#8 0x50#8 1#8)) := by decide
theorem test_assemble_lines : assemble? ['I', 'N', 'I', 'T', '\n', 'E', 'N', 'D', ' ', '7'] = some [.init, .endMsg 7#3] := by
  decide
theorem test_assemble_window :
    readLine? ['W', 'I', 'N', '[', ' ', '1', 'F', ' ', 'B', '3', ' ', 'D', '8', ' ', '1', 'F', ' ', 'B', '9', ' ', 'B',
      '3', ' ', 'D', '8', ' ', '1', 'F', ' ', ']'] = some (.command (.win 0x1FD8B3B91FD8B31F#64)) := by decide

/-! One step of each command. -/

-- R120's worked example
theorem test_init_clears : after (exec .init { latchedDiv with done := true }) = some State.reset := by decide
-- C2: the second group of V1 completes the Window
theorem test_grp_completes_window : after (exec (.grp 0x58#8 0x57#8 0x66#8 0x7B#8 0x67#8) afterC1) =
    some { State.reset with pos := 10#64, prev := 0x53#32, idx := 1#32, lastq := 0x53#32, out := [0x53#8] } := by
  decide +kernel
-- C5: a decode error replaces `DivisionByZero`
theorem test_grp_replaces_division : after (exec (.grp 0x2B#8 0x76#8 0x54#8 0x7E#8 0x67#8) latchedDiv) =
    some { latchedDiv with err := .invalidByte, errPos := 33#64, errByte := 0x7E#8, pos := 35#64 } := by decide +kernel
-- C21: the index wraps
theorem test_win_wraps_index : after (exec (.win 0#64) { State.reset with idx := 0xFFFFFFFF#32 }) =
    some { State.reset with prev := 0xFF#32, idx := 0#32, lastq := 0x7FFFFFFF#32, out := [0xFF#8] } := by decide
-- C4: the divisor is 0
theorem test_win_division_by_zero : after (exec (.win 5#64) afterZero) =
    some { afterZero with err := .divisionByZero, errPos := 2#64 } := by decide
-- P4: `END 2` after one group, `STATUS = 0x13`
theorem test_end_wrong_length : after (exec (.endMsg 2#3) afterC1) =
      some { State.reset with pos := 5#64, done := true, err := .invalidLength, errPos := 7#64 } ∧
    (after (exec (.endMsg 2#3) afterC1)).map (·.status) = some 0x13#64 := by decide
-- C13: `END 5`, `STATUS = 0x563`
theorem test_end_illegal : (after (exec (.endMsg 5#3) { State.reset with pos := 5#64 })).map (·.status) = some 0x563#64 := by
  decide
-- C3's word as the first command after reset
theorem test_step_runs_offered_word :
    (after (step (State.reset.withFetchWord 72 0x21FD8B3B91FD8B31F))).map (·.out) = some [0x53#8] := by decide

/-! Witnesses: the hypotheses of each statement that has any, met together; one for each clause. -/

theorem witness_TextLineExpandsToTextScript :
    ∀ c ∈ ['a', 'g', '6', 'P', 'w', ' ', '~'], 32 ≤ c.toNat ∧ c.toNat < 127 ∧ c ≠ '"' ∧ c ≠ '\\' := by simp
theorem witness_DecodeGroupReportsLowestInvalidSymbol :
    (∀ j : Fin 5, j < 0 → validSymbol #v[0x20#8, 0x22#8, 0x27#8, 0x2C#8, 0x3B#8][j] = true) ∧
      validSymbol #v[0x20#8, 0x22#8, 0x27#8, 0x2C#8, 0x3B#8][(0 : Fin 5)] = false ∧
    (∀ j : Fin 5, j < 4 → validSymbol #v[0x61#8, 0x67#8, 0x36#8, 0x50#8, 0x20#8][j] = true) ∧
      validSymbol #v[0x61#8, 0x67#8, 0x36#8, 0x50#8, 0x20#8][(4 : Fin 5)] = false := by decide +kernel
/-- `%nSc0` and `%nSc1`: the two sides of the boundary. -/
theorem witness_DecodeGroupOfValidSymbols :
    digit? 0x25#8 = some 82 ∧ digit? 0x6E#8 = some 23 ∧ digit? 0x53#8 = some 54 ∧ digit? 0x63#8 = some 12 ∧
      digit? 0x30#8 = some 0 ∧ 4294967295 = 82 * 52200625 + 23 * 614125 + 54 * 7225 + 12 * 85 + 0 ∧
      digit? 0x31#8 = some 1 ∧ 4294967296 = 82 * 52200625 + 23 * 614125 + 54 * 7225 + 12 * 85 + 1 := by decide +kernel
theorem witness_WindowsAreLittleEndianSlices : (windows bytesT7)[1]? = some 0x222222222222A023#64 := by decide
theorem witness_GroupsAreFiveSymbolSlices :
    (groups (symbolsA ++ symbolsB))[1]? = some ⟨0x58#8, 0x57#8, 0x66#8, 0x7B#8, 0x67#8⟩ := by decide
theorem witness_ResetInputRestartsTheBlock : ({ latchedDiv with input := [.rst] } : State).input = .rst :: [] := rfl
theorem witness_StepRunsTheDecodedCommand :
    ({ State.reset with input := [.cmd 0#66, .rst] } : State).input = .cmd 0#66 :: [.rst] := rfl
theorem witness_StepWithNothingOfferedHolds : afterC1.input = [] := rfl
theorem witness_StatusRegistersReadTheFields : (0#3 : BitVec 3) ≠ 4#3 ∧ (7#3 : BitVec 3) ≠ 4#3 := by decide
theorem witness_TStepIsTheDocumentsAlgorithm :
    2 * (0x80000000#32).toNat % 2 ^ 32 = 0 ∧ 2 * (0x80000001#32).toNat % 2 ^ 32 ≠ 0 := by decide
theorem witness_TStepArithmeticLaws :
    tStep 0xFFFFFFFF00000000#64 1#32 0#32 = .ok 0xFF#8 0x7FFFFFFF#32 ∧ (255#32).toNat ≤ 255 := by decide
theorem witness_XformStepEmitsOrLatches : tStep 0#64 afterZero.prev afterZero.idx = .divZero ∧
    tStep 0x200#64 State.reset.prev State.reset.idx = .ok 0#8 0x100#32 := by decide
theorem witness_WinRunsOneTransformStep :
    ({ State.reset with done := true } : State).done = true ∧ latchedDiv.err ≠ .none ∧
    (afterZero.done = false ∧ afterZero.err = .none ∧ 2 * afterZero.prev.toNat % 2 ^ 32 = 0) ∧
    (afterC1.done = false ∧ afterC1.err = .none ∧ 2 * afterC1.prev.toNat % 2 ^ 32 ≠ 0) := by decide
theorem witness_GrpDecodesAndFeedsTheAssembler :
    (({ State.reset with err := .invalidChunk } : State).done = false ∧
      ({ State.reset with err := .invalidChunk } : State).err = .invalidChunk) ∧
    (latchedDiv.done = false ∧ ¬(latchedDiv.err = .invalidByte ∨ latchedDiv.err = .invalidChunk) ∧
      decodeGroup 0x2B#8 0x76#8 0x54#8 0x7E#8 0x67#8 = .badByte 3 0x7E#8 ∧
      decodeGroup 0x25#8 0x6E#8 0x53#8 0x63#8 0x31#8 = .badChunk) ∧
    (decodeGroup 0x61#8 0x67#8 0x36#8 0x50#8 0x77#8 = .ok 0x1F#8 0xB3#8 0xD8#8 0x1F#8 ∧ latchedDiv.err ≠ .none ∧
      State.reset.done = false ∧ State.reset.err = .none ∧ State.reset.holdV = false ∧
      afterC1.done = false ∧ afterC1.err = .none ∧ afterC1.holdV = true) := by decide +kernel
theorem witness_EndClosesTheMessage : afterC1.done = false ∧ (0#3 : BitVec 3).toNat = 0 ∧
    (1 ≤ (1#3 : BitVec 3).toNat ∧ (1#3 : BitVec 3).toNat ≤ 4) ∧ (1 ≤ (4#3 : BitVec 3).toNat ∧ (4#3 : BitVec 3).toNat ≤ 4) ∧
    5 ≤ (5#3 : BitVec 3).toNat ∧ 5 ≤ (7#3 : BitVec 3).toNat := by decide
/-- A closed message, and the `INIT` that leaves it. -/
theorem witness_OnlyInitOrResetLeavesDone :
    ({ State.reset with done := true } : State).done = true ∧ Instr.win 5#64 ≠ .init ∧
    (after (step { State.reset with done := true, input := [.cmd 0#66] })).map (·.done) = some false := by decide
theorem witness_inv_latchedDiv : MessageInv latchedDiv := by constructor <;> decide
theorem witness_EveryStepKeepsMessageInvariant :
    step (latchedDiv.withFetchWord 72 0x30000000000000003) = .next
      { latchedDiv with err := .invalidLength, errPos := 33#64, done := true } := by rfl
theorem witness_EveryRunFromResetMeetsMessageInvariant :
    runSteps 2 { State.reset with input := [.cmd 0#66, .rst] } = .next State.reset := by rfl
/-- A command that emits, one that does not, and one that moves `pos`. -/
theorem witness_CommandEmitsAtMostOneByte : Instr.win 0x200#64 ≠ .init ∧
    (after (exec (.win 0x200#64) State.reset)).map (·.out) = some [0#8] ∧
    (after (exec (.endMsg 0#3) State.reset)).map (·.out) = some [] := by decide
theorem witness_OnlyGrpCountsSymbols :
    (after (exec (.grp 0#8 0#8 0#8 0#8 0#8) { State.reset with pos := 0xFFFFFFFFFFFFFFFF#64 })).map (·.pos) =
      some 4#64 := by decide +kernel
/-- `END 3` after a latched division by zero: the invariant holds, the command is not `INIT`, the kind changes. -/
theorem witness_LatchedErrorsOnlyRiseInRank : Instr.endMsg 3#3 ≠ .init ∧
    (after (exec (.endMsg 3#3) latchedDiv)).map (·.err) = some .invalidLength ∧ latchedDiv.err ≠ .invalidLength := by
  decide
theorem witness_LatchingLeavesTheCarriedState : Instr.win 5#64 ≠ .init ∧
    (after (exec (.win 5#64) afterZero)).map (·.err) = some .divisionByZero ∧ afterZero.err ≠ .divisionByZero := by decide
theorem witness_OnlyInitOrResetClearsAnError : latchedDiv.err ≠ .none ∧
    ∀ i ∈ (latchedDiv.withFetchWord 72 0x20000000000000005).input.take 1, i.startsMessage = false := by decide
theorem witness_ClosedMessageIsUndisturbed : ({ latchedDiv with done := true } : State).done = true ∧
    ∀ i ∈ (latchedDiv.withFetchWord 72 0x30000000000000003).input.take 1, i.startsMessage = false := by decide
theorem witness_DecodeLengthLaw : decodeText symbolsA = .ok [0x1F#8, 0xB3#8, 0xD8#8, 0x1F#8] := by decide +kernel
theorem witness_TransformTruncationLaw : transform bytesT7 = .ok [0x41#8, 0#8] ∧ [1#8, 2#8].length < 8 ∧
    (windowV1 ++ [1#8]).length / 8 = (windowV1 ++ [2#8]).length / 8 ∧
    (windowV1 ++ [1#8]).take (8 * ((windowV1 ++ [2#8]).length / 8)) =
      (windowV1 ++ [2#8]).take (8 * ((windowV1 ++ [2#8]).length / 8)) := by decide
theorem witness_TransformChainingLaw : transform bytesT7 = .ok [0x41#8, 0#8] ∧
    (windows bytesT7)[0]? = some 0x1111111111111193#64 ∧ (windows bytesT7)[1]? = some 0x222222222222A023#64 := by decide
/-- T9: the third of four Windows fails, so the error index 2 is below `m = 4` and not below `m = 2`. -/
theorem witness_TransformPrefixLaw :
    let raw := bytesT8 ++ [0xCB#8, 0x66#8, 0x44#8, 0x44#8, 0x44#8, 0x44#8, 0x44#8, 0x44#8]
    raw.length / 8 < 2 ^ 32 ∧ 4 ≤ raw.length / 8 ∧ transform raw = .err .divisionByZero 2 0#8 ∧
      transform bytesT7 = .ok [0x41#8, 0#8] ∧ 1 ≤ bytesT7.length / 8 := by decide
/-- T7 ends in the byte 0; T8 has a further Window. -/
theorem witness_ZeroByteIsFatalToTheNextWindow :
    transform (bytesT8.take (8 * (1 + 1))) = .ok [0x41#8, 0#8] ∧ [0x41#8, 0#8].length = 1 + 1 ∧
    [0x41#8, 0#8].getLast? = some 0#8 ∧ 1 + 1 < bytesT8.length / 8 ∧
    transform (bytesT7.take (8 * (1 + 1))) = .ok [0x41#8, 0#8] ∧ bytesT7.length / 8 = 1 + 1 := by decide
/-- A text of seven symbols; one whose second group has an invalid symbol; one whose second group overflows. -/
theorem witness_PipelineErrorPrecedence :
    (symbolsA ++ [0x58#8, 0x57#8]).length % 5 ≠ 0 ∧
    (symbolsA ++ [0x2B#8, 0x76#8, 0x54#8, 0x7E#8, 0x67#8]).length % 5 = 0 ∧
    (groups (symbolsA ++ [0x2B#8, 0x76#8, 0x54#8, 0x7E#8, 0x67#8]))[1]? =
      some ⟨0x2B#8, 0x76#8, 0x54#8, 0x7E#8, 0x67#8⟩ ∧
    (TextGroup.mk 0x61#8 0x67#8 0x36#8 0x50#8 0x77#8).decode = .ok 0x1F#8 0xB3#8 0xD8#8 0x1F#8 ∧
    (TextGroup.mk 0x2B#8 0x76#8 0x54#8 0x7E#8 0x67#8).decode = .badByte 3 0x7E#8 ∧
    (TextGroup.mk 0x25#8 0x6E#8 0x53#8 0x63#8 0x31#8).decode = .badChunk := by decide +kernel
theorem witness_PipelineResultShape : decodeText [0x61#8, 0x67#8] = .err .invalidLength 2 0#8 ∧
    decodeText symbolsA = .ok [0x1F#8, 0xB3#8, 0xD8#8, 0x1F#8] := by decide +kernel
/-- The invariant's three cases: one group held, a division by zero, and a group that does not decode. -/
theorem witness_TextScriptComputesPipeline : symbolsT8.length < 2 ^ 64 ∧ 6 ≤ symbolsT8.length / 5 ∧
    decodeText (symbolsA.take (5 * 1)) = .ok [0x1F#8, 0xB3#8, 0xD8#8, 0x1F#8] ∧ 1 ≤ symbolsA.length / 5 ∧
    transform [0x1F#8, 0xB3#8, 0xD8#8, 0x1F#8] = .ok [] ∧
    decodeText (symbolsT8.take (5 * 6)) = .ok bytesT8 ∧ transform bytesT8 = .err .divisionByZero 2 0#8 ∧
    decodeText ([0x7E#8, 0x67#8, 0x36#8, 0x50#8, 0x77#8].take (5 * 1)) = .err .invalidByte 0 0x7E#8 := by
  decide +kernel
/-- T7 and T8 for the two results of `Transform`; V1 for a text that decodes. -/
theorem witness_RawScriptComputesTransform : transform bytesT7 = .ok [0x41#8, 0#8] ∧
    transform bytesT8 = .err .divisionByZero 2 0#8 ∧ (symbolsA ++ symbolsB).length < 2 ^ 64 ∧
    decodeText (symbolsA ++ symbolsB) = .ok windowV1 := by decide +kernel

end Sys2Proof.Tests
end

/-! The status registers (spec/10_state.md R31, R32): what each select reads, and `STATUS` as a number and bit by bit. -/

namespace Sys2Proof.Machine

open Sys2Proof.Laws (toNat_append_eq_add)

@[simp] theorem Block.statusReg_zero (b : Block) : b.statusReg 0#3 = b.status := rfl
@[simp] theorem Block.statusReg_one (b : Block) : b.statusReg 1#3 = b.errPos := rfl
@[simp] theorem Block.statusReg_two (b : Block) : b.statusReg 2#3 = b.pos := rfl
@[simp] theorem Block.statusReg_three (b : Block) : b.statusReg 3#3 = b.idx.setWidth 64 := rfl
@[simp] theorem Block.statusReg_four (b : Block) : b.statusReg 4#3 = b.prev.setWidth 64 := rfl
@[simp] theorem Block.statusReg_five (b : Block) : b.statusReg 5#3 = b.hold.setWidth 64 := rfl
@[simp] theorem Block.statusReg_six (b : Block) : b.statusReg 6#3 = b.lastq.setWidth 64 := rfl
@[simp] theorem Block.statusReg_seven (b : Block) : b.statusReg 7#3 = 0#64 := rfl

/-- A half-width field keeps its value when a status register shows it. -/
theorem toNat_setWidth_word64 (v : Word32) : (v.setWidth 64).toNat = v.toNat :=
  BitVec.toNat_setWidth_of_le (by decide)

/-- R31: the fields of `STATUS` by their weights. -/
theorem Block.status_toNat (b : Block) :
    b.status.toNat = b.done.toNat + 2 * b.fault.toNat + 4 * b.holdV.toNat + 16 * b.err.code.toNat +
      256 * b.errByte.toNat := by
  simp only [Block.status, toNat_append_eq_add, BitVec.toNat_ofBool, BitVec.toNat_ofNat]
  omega

/-- R32: bit 0 of `STATUS` is the output `done_o`. -/
theorem Block.status_bit_zero (b : Block) : b.status.getLsbD 0 = b.doneO := by
  simp only [Block.status, Block.doneO, BitVec.getLsbD_append]
  simp

/-- R32: bit 1 of `STATUS` is the output `fault_o`. -/
theorem Block.status_bit_one (b : Block) : b.status.getLsbD 1 = b.faultO := by
  simp only [Block.status, Block.faultO, BitVec.getLsbD_append]
  simp

/-- R31, from the reset column of R20: `SR[4]` shows `prev = 1`, every other register shows a field that is 0. -/
theorem reset_statusReg (i : BitVec 3) : State.reset.statusReg i = if i = 4#3 then 1#64 else 0#64 := by
  revert i
  decide

/-- Settles O16: the codes are the table of R72, the registers the lemmas above, one per select. -/
theorem statusRegistersReadTheFields : Obligations.StatusRegistersReadTheFields := by
  refine ⟨⟨rfl, rfl, rfl, rfl, rfl, rfl, rfl, rfl⟩, fun b => ?_, reset_statusReg 4#3, fun i hi => ?_⟩
  · simp only [Block.statusReg_zero, Block.statusReg_one, Block.statusReg_two, Block.statusReg_three,
      Block.statusReg_four, Block.statusReg_five, Block.statusReg_six, Block.statusReg_seven, toNat_setWidth_word64,
      Block.status_bit_zero, Block.status_bit_one, and_true]
    exact b.status_toNat
  · rw [reset_statusReg, if_neg hi]

end Sys2Proof.Machine

/-! The invariants of spec/10_state.md R36: each update of the state keeps them under the guard its caller has checked,
so every command, every step and every run keeps them. -/

namespace Sys2Proof.Machine

/-- A reset block with an empty output meets the invariants, whatever the host has yet to send. -/
theorem messageInv_restart (s : State) : MessageInv s.restart where
  prev_byte := by simp
  prev_first _ := rfl
  hold_empty _ := rfl
  clear _ := ⟨rfl, rfl⟩
  raised := by simp
  final := by simp
  div_zero := by simp
  lastq_low := by simp
  lastq_first _ := rfl
  out_count := rfl
  done_drop _ := rfl

/-- The invariants do not read what the host has yet to send. -/
theorem MessageInv.withInput {s : State} (h : MessageInv s) (inputs : List Input) :
    MessageInv { s with input := inputs } := { h with }

/-- The invariants do not read `pos`. -/
theorem MessageInv.countGroup {s : State} (h : MessageInv s) : MessageInv s.countGroup := { h with }

theorem MessageInv.holdGroup {s : State} (h : MessageInv s) (hopen : s.done = false) (d : Word32) :
    MessageInv (s.holdGroup d) :=
  { h with
    hold_empty := by simp
    done_drop := by simp [hopen] }

theorem MessageInv.dropHold {s : State} (h : MessageInv s) : MessageInv s.dropHold :=
  { h with
    hold_empty := fun _ => rfl
    done_drop := fun _ => rfl }

/-- A message may be closed once no group is held (i). -/
theorem MessageInv.close {s : State} (h : MessageInv s) (hdrop : s.holdV = false) : MessageInv s.close :=
  { h with
    final := fun _ => rfl
    done_drop := fun _ => hdrop }

/-- Latching keeps the invariants when the kind is one that commands raise (d), a kind of `END` finds the message
closed (e), and a division by zero carries what (f) says. -/
theorem MessageInv.raise {s : State} (h : MessageInv s) {k : ErrKind} {p : Word64} (b : Byte) (hne : k ≠ .none)
    (hraised : k ≠ .invalidTail ∧ k ≠ .reserved)
    (hfinal : k = .invalidLength ∨ k = .illegalCommand → s.done = true)
    (hdiv : k = .divisionByZero → s.prev = 0#32 ∧ p = s.idx.setWidth 64) : MessageInv (s.raise k p b) :=
  { h with
    clear := fun hk => absurd hk hne
    raised := hraised
    final := hfinal
    div_zero := hdiv }

/-- The successful arm of R104 with no error latched: the byte carried is the low byte of the quotient. -/
theorem MessageInv.advance {s : State} (h : MessageInv s) (herr : s.err = .none) {b : Byte} {q : Word32}
    (hb : b = q.extractLsb' 0 8) : MessageInv (s.advance b q) :=
  { h with
    prev_byte := by
      have := b.isLt
      simp only [State.advance_prev, widenByte_toNat]
      omega
    prev_first := by simp
    div_zero := by simp [herr]
    lastq_low := by simp [widenByte_low, hb]
    lastq_first := by simp
    out_count := by simp [BitVec.ofNat_add, h.out_count] }

theorem MessageInv.xformStep {s : State} (h : MessageInv s) (herr : s.err = .none) (w : Word64) :
    MessageInv (s.xformStep w) := by
  obtain ⟨hstep, heq⟩ | ⟨b, q, hstep, heq⟩ := s.xformStep_cases w
  · have hprev : s.prev = 0#32 := (divisorOf_eq_zero h.prev_byte).mp (tStep_divZero.mp hstep)
    rw [heq]
    exact h.raise _ (by simp) (by simp) (by simp) fun _ => ⟨hprev, rfl⟩
  · obtain ⟨-, -, hb⟩ := tStep_ok hstep
    rw [heq]
    exact h.advance herr hb

theorem MessageInv.assemble {s : State} (h : MessageInv s) (hopen : s.done = false) (herr : s.err = .none)
    (d : Word32) : MessageInv (s.assemble d) := by
  obtain ⟨-, heq⟩ | ⟨-, heq⟩ := s.assemble_cases d <;> rw [heq]
  · exact h.holdGroup hopen d
  · exact h.dropHold.xformStep herr _

theorem MessageInv.groupEffect {s : State} (h : MessageInv s) (hopen : s.done = false) (r : GroupResult) :
    MessageInv (s.groupEffect r) := by
  obtain ⟨-, heq⟩ | ⟨k, b, -, -, heq⟩ | ⟨-, -, heq⟩ | ⟨b0, b1, b2, b3, -, herr, heq⟩ := s.groupEffect_cases r <;>
    rw [heq]
  · exact h
  · exact h.raise _ (by simp) (by simp) (by simp) (by simp)
  · exact h.raise _ (by simp) (by simp) (by simp) (by simp)
  · exact h.assemble hopen herr _

/-- Latching and the end of the message touch different fields, so an error of `END` may be taken to be latched in the
closed message, where (e) allows it. -/
theorem State.raise_dropHold_close (s : State) (k : ErrKind) (p : Word64) (b : Byte) :
    (s.raise k p b).dropHold.close = s.dropHold.close.raise k p b := rfl

theorem MessageInv.endMessage {s : State} (h : MessageInv s) (n : BitVec 3) :
    MessageInv (s.tailEffect n).dropHold.close := by
  have hclosed : MessageInv s.dropHold.close := h.dropHold.close rfl
  obtain ⟨-, heq⟩ | ⟨-, -, heq⟩ | ⟨-, heq⟩ := s.tailEffect_cases n
  · rw [heq, State.raise_dropHold_close]
    exact hclosed.raise _ (by simp) (by simp) (fun _ => rfl) (by simp)
  · rw [heq, State.raise_dropHold_close]
    exact hclosed.raise _ (by simp) (by simp) (fun _ => rfl) (by simp)
  · rw [heq]
    exact hclosed

/-- R36: every command keeps the invariants. -/
theorem exec_keeps_messageInv {i : Instr} {s t : State} (hs : MessageInv s) (h : exec i s = .next t) :
    MessageInv t := by
  obtain ⟨-, rfl⟩ | ⟨-, -, rfl⟩ | ⟨w, -, -, herr, rfl⟩ | ⟨_, _, _, _, _, -, hopen, rfl⟩ | ⟨n, -, -, rfl⟩ := exec_cases h
  · exact messageInv_restart s
  · exact hs
  · exact hs.xformStep herr w
  · exact (hs.groupEffect hopen _).countGroup
  · exact hs.endMessage n

/-- R36: every step keeps the invariants, on any input. -/
theorem step_keeps_messageInv {s t : State} (hs : MessageInv s) (h : step s = .next t) : MessageInv t := by
  obtain ⟨-, rfl⟩ | ⟨rest, -, rfl⟩ | ⟨w, rest, -, hexec⟩ := step_cases h
  · exact hs
  · exact messageInv_restart _
  · exact exec_keeps_messageInv (hs.withInput rest) hexec

/-- A run that goes on makes its first step, and the others from where that leads. -/
theorem runSteps_succ_next {n : Nat} {s t : State} (h : runSteps (n + 1) s = .next t) :
    ∃ u, step s = .next u ∧ runSteps n u = .next t := by
  match hu : step s with
  | .next u => exact ⟨u, rfl, runSteps_succ hu ▸ h⟩
  | .fault r => nomatch r
  | .refused r =>
    simp only [runSteps, Host.Core.run, show Sys2Proof.core.step s = .refused r from hu] at h
    cases h

/-- What every step keeps, every run keeps (R48). -/
theorem runSteps_keeps {P : State → Prop} (hstep : ∀ s t, P s → step s = .next t → P t) {n : Nat} {s t : State}
    (hs : P s) (h : runSteps n s = .next t) : P t := by
  induction n generalizing s with
  | zero =>
    cases h
    exact hs
  | succ n ih =>
    obtain ⟨u, hu, hrun⟩ := runSteps_succ_next h
    exact ih (hstep s u hs hu) hrun

/-- Settles O27: the invariants hold at reset with any inputs offered, and every step keeps them. -/
theorem everyRunFromResetMeetsMessageInvariant : Obligations.EveryRunFromResetMeetsMessageInvariant :=
  fun inputs _ _ hrun =>
    runSteps_keeps (fun _ _ => step_keeps_messageInv)
      (messageInv_restart { State.reset with input := inputs }) hrun

end Sys2Proof.Machine

/-! Windows and the two halves of a Word (spec/20_memory.md R44, R45, R71): the number of Windows of a byte sequence,
the Word of each, and what `valueOf` and `keyOf` read of two groups joined. -/

namespace Sys2Proof.Machine

/-- R44, R107: a Window for every eight bytes; the seven forms of a shorter rest, and the empty one, make none. -/
@[simp] theorem windows_length : ∀ raw : List Byte, (windows raw).length = raw.length / 8
  | _ :: _ :: _ :: _ :: _ :: _ :: _ :: _ :: rest => by
    simp only [windows, List.length_cons, windows_length rest]
    omega
  | [] | [_] | [_, _] | [_, _, _] | [_, _, _, _] | [_, _, _, _, _] | [_, _, _, _, _, _] | [_, _, _, _, _, _, _] => by
    simp [windows]

/-- R44 as the sum it writes, for the Window at the head of a byte sequence. -/
theorem windowWord_toNat_eq_sum (b0 b1 b2 b3 b4 b5 b6 b7 : Byte) (rest : List Byte) :
    (windowWord b0 b1 b2 b3 b4 b5 b6 b7).toNat = ∑ j ∈ Finset.range 8,
      ((b0 :: b1 :: b2 :: b3 :: b4 :: b5 :: b6 :: b7 :: rest).getD j 0#8).toNat * 2 ^ (8 * j) := by
  simp only [windowWord_toNat, Finset.sum_range_succ, Finset.sum_range_zero, List.getD_cons_zero, List.getD_cons_succ]
  ring

/-- R44 for every Window: past the first one, byte `8 (i + 1) + j` of the sequence is byte `8 i + j` of what follows
the first Window. -/
theorem windows_getElem?_toNat {raw : List Byte} {i : Nat} {word : Word64} (h : (windows raw)[i]? = some word) :
    word.toNat = ∑ j ∈ Finset.range 8, (raw.getD (8 * i + j) 0#8).toNat * 2 ^ (8 * j) := by
  fun_induction windows raw generalizing i with
  | case1 b0 b1 b2 b3 b4 b5 b6 b7 rest ih =>
    cases i with
    | zero =>
      obtain rfl : windowWord b0 b1 b2 b3 b4 b5 b6 b7 = word := by simpa using h
      simpa only [Nat.mul_zero, Nat.zero_add] using windowWord_toNat_eq_sum b0 b1 b2 b3 b4 b5 b6 b7 rest
    | succ i =>
      have hshift (j : Nat) : 8 * (i + 1) + j = 8 * i + j + 8 := by omega
      simpa only [hshift, List.getD_cons_succ] using ih (by simpa using h)
  | case2 => simp at h

/-- Settles O8: the two lemmas above, for the number of Windows and for the Word of each. -/
theorem windowsAreLittleEndianSlices : Obligations.WindowsAreLittleEndianSlices :=
  fun raw => ⟨windows_length raw, fun _ _ => windows_getElem?_toNat⟩

/-- R71: `value` is the packed group that came first. -/
@[simp] theorem valueOf_joinGroups (first second : Word32) : valueOf (joinGroups first second) = first :=
  BitVec.extractLsb'_append_eq_right

/-- R71: `key` is the packed group that came second. -/
@[simp] theorem keyOf_joinGroups (first second : Word32) : keyOf (joinGroups first second) = second :=
  BitVec.extractLsb'_append_eq_left

/-- R43, R44: the Word of two group values, each stored most significant byte first, joins their byte reversals. -/
theorem windowWord_groupByte (va vb : Word32) :
    windowWord (groupByte va 0) (groupByte va 1) (groupByte va 2) (groupByte va 3)
      (groupByte vb 0) (groupByte vb 1) (groupByte vb 2) (groupByte vb 3) = joinGroups (bswap32 va) (bswap32 vb) := by
  rw [← joinGroups_packGroup, packGroup_groupByte, packGroup_groupByte]

/-- Settles O10: the Word joins the two byte reversals, so its halves are those, and they are the groups as packed. -/
theorem armoredWordHalvesAreByteSwapped : Obligations.ArmoredWordHalvesAreByteSwapped := by
  intro va vb word
  have hword : word = joinGroups (bswap32 va) (bswap32 vb) := windowWord_groupByte va vb
  rw [hword, packGroup_groupByte, packGroup_groupByte]
  exact ⟨valueOf_joinGroups .., keyOf_joinGroups .., rfl, rfl⟩

end Sys2Proof.Machine

/-! The command word by its fields (spec/30_encoding.md R60 to R63, R67, R68): what the decoder reads of `op` and a
payload, and of a payload whose own fields are written out. -/

namespace Sys2Proof.Laws

/-- R63: all eight symbol positions lie in the payload. -/
theorem symbolField_cmdWord (op : BitVec 2) (payload : Word64) {k : Nat} (hk : k < 8) :
    symbolField (cmdWord op payload) k = payload.extractLsb' (8 * k) 8 :=
  BitVec.extractLsb'_append_eq_of_add_le (by omega)

/-- R68: the tail count lies in the payload. -/
theorem ntailField_cmdWord (op : BitVec 2) (payload : Word64) :
    ntailField (cmdWord op payload) = payload.extractLsb' 0 3 :=
  BitVec.extractLsb'_append_eq_of_add_le (by decide)

/-- R62. -/
theorem decode_cmdWord_init (payload : Word64) : decode (cmdWord 0#2 payload) = .init := by
  simp [decode, opField_cmdWord]

/-- R63: the five bytes at the bottom of a bit vector, whatever stands above them. -/
theorem extractLsb'_five_bytes {n : Nat} (above : BitVec n) (s0 s1 s2 s3 s4 : Byte) :
    (above ++ s4 ++ s3 ++ s2 ++ s1 ++ s0).extractLsb' 0 8 = s0 ∧
    (above ++ s4 ++ s3 ++ s2 ++ s1 ++ s0).extractLsb' 8 8 = s1 ∧
    (above ++ s4 ++ s3 ++ s2 ++ s1 ++ s0).extractLsb' 16 8 = s2 ∧
    (above ++ s4 ++ s3 ++ s2 ++ s1 ++ s0).extractLsb' 24 8 = s3 ∧
    (above ++ s4 ++ s3 ++ s2 ++ s1 ++ s0).extractLsb' 32 8 = s4 := by
  simp [BitVec.extractLsb'_append_eq_of_le, BitVec.extractLsb'_append_eq_right]

/-- R63, over any value of the ignored bits 63:40. -/
theorem decode_cmdWord_grp (ignored : BitVec 24) (s0 s1 s2 s3 s4 : Byte) :
    decode (cmdWord 1#2 (ignored ++ s4 ++ s3 ++ s2 ++ s1 ++ s0)) = .grp s0 s1 s2 s3 s4 := by
  obtain ⟨h0, h1, h2, h3, h4⟩ := extractLsb'_five_bytes ignored s0 s1 s2 s3 s4
  simp [decode, opField_cmdWord, symbolField_cmdWord, h0, h1, h2, h3, h4]

/-- R67. -/
theorem decode_cmdWord_win (payload : Word64) : decode (cmdWord 2#2 payload) = .win payload := by
  simp [decode, opField_cmdWord, payloadField_cmdWord]

/-- R68, over any value of the ignored bits 63:3. -/
theorem decode_cmdWord_endMsg (ignored : BitVec 61) (ntail : BitVec 3) :
    decode (cmdWord 3#2 (ignored ++ ntail)) = .endMsg ntail := by
  have hlow : (ignored ++ ntail).extractLsb' 0 3 = ntail := BitVec.extractLsb'_append_eq_right
  simp [decode, opField_cmdWord, ntailField_cmdWord, hlow]

/-- Settles O2: each word, its fields written from the top bit down, is `op` before a payload, which the lemma of
that `op` decodes. -/
theorem everyWordDecodesByItsFields : Obligations.EveryWordDecodesByItsFields := by
  refine ⟨decode_cmdWord_init, fun x s0 s1 s2 s3 s4 => ?grp, fun key value => ?win, fun x n => ?endMsg⟩
  case grp =>
    have hword : 0b01#2 ++ x ++ s4 ++ s3 ++ s2 ++ s1 ++ s0 = cmdWord 1#2 (x ++ s4 ++ s3 ++ s2 ++ s1 ++ s0) := by
      simp only [cmdWord, BitVec.append_assoc, BitVec.cast_eq]
    rw [hword, decode_cmdWord_grp]
  case win =>
    have hword : 0b10#2 ++ key ++ value = cmdWord 2#2 (key ++ value) := BitVec.append_assoc ..
    rw [hword, decode_cmdWord_win]
  case endMsg =>
    have hword : 0b11#2 ++ x ++ n = cmdWord 3#2 (x ++ n) := BitVec.append_assoc ..
    rw [hword, decode_cmdWord_endMsg]

end Sys2Proof.Laws

/-! The digit function (spec/30_encoding.md R65). -/

namespace Sys2Proof.Machine

/-- Settles O5: the finite table of R65 is compared code by code; validity is defined through `digit`. -/
theorem digitTableIsR65 : Obligations.DigitTableIsR65 :=
  ⟨by decide +kernel, fun _ => validSymbol_iff⟩

end Sys2Proof.Machine

/-! `DecodeGroup` (spec/40_armor_decoder.md R80 to R83): one equation per lowest invalid offset, and the bytes of five
valid symbols. -/

namespace Sys2Proof.Machine

/-! R81: the symbols before the invalid one are valid, those after it are any. -/

section LowestInvalid

variable {s0 s1 s2 s3 s4 : Byte} {d0 d1 d2 d3 : Nat}

theorem decodeGroup_invalid_zero (h0 : digit? s0 = none) : decodeGroup s0 s1 s2 s3 s4 = .badByte 0 s0 := by
  simp [decodeGroup, h0]

theorem decodeGroup_invalid_one (h0 : digit? s0 = some d0) (h1 : digit? s1 = none) :
    decodeGroup s0 s1 s2 s3 s4 = .badByte 1 s1 := by
  simp [decodeGroup, h0, h1]

theorem decodeGroup_invalid_two (h0 : digit? s0 = some d0) (h1 : digit? s1 = some d1) (h2 : digit? s2 = none) :
    decodeGroup s0 s1 s2 s3 s4 = .badByte 2 s2 := by
  simp [decodeGroup, h0, h1, h2]

theorem decodeGroup_invalid_three (h0 : digit? s0 = some d0) (h1 : digit? s1 = some d1) (h2 : digit? s2 = some d2)
    (h3 : digit? s3 = none) : decodeGroup s0 s1 s2 s3 s4 = .badByte 3 s3 := by
  simp [decodeGroup, h0, h1, h2, h3]

theorem decodeGroup_invalid_four (h0 : digit? s0 = some d0) (h1 : digit? s1 = some d1) (h2 : digit? s2 = some d2)
    (h3 : digit? s3 = some d3) (h4 : digit? s4 = none) : decodeGroup s0 s1 s2 s3 s4 = .badByte 4 s4 := by
  simp [decodeGroup, h0, h1, h2, h3, h4]

end LowestInvalid

/-- Settles O6: the symbols before `k` have digits, so the equation of that offset applies. -/
theorem decodeGroupReportsLowestInvalidSymbol : Obligations.DecodeGroupReportsLowestInvalidSymbol := by
  intro s0 s1 s2 s3 s4 k symbols hvalid hinvalid
  have hnone : digit? symbols[k] = none := validSymbol_eq_false.mp hinvalid
  have hdigit (j : Fin 5) (hj : j < k) : ∃ d, digit? symbols[j] = some d := validSymbol_iff.mp (hvalid j hj)
  match k, hnone, hdigit with
  | 0, hnone, _ => exact decodeGroup_invalid_zero hnone
  | 1, hnone, hdigit =>
    obtain ⟨_, h0⟩ := hdigit 0 (by decide)
    exact decodeGroup_invalid_one h0 hnone
  | 2, hnone, hdigit =>
    obtain ⟨_, h0⟩ := hdigit 0 (by decide)
    obtain ⟨_, h1⟩ := hdigit 1 (by decide)
    exact decodeGroup_invalid_two h0 h1 hnone
  | 3, hnone, hdigit =>
    obtain ⟨_, h0⟩ := hdigit 0 (by decide)
    obtain ⟨_, h1⟩ := hdigit 1 (by decide)
    obtain ⟨_, h2⟩ := hdigit 2 (by decide)
    exact decodeGroup_invalid_three h0 h1 h2 hnone
  | 4, hnone, hdigit =>
    obtain ⟨_, h0⟩ := hdigit 0 (by decide)
    obtain ⟨_, h1⟩ := hdigit 1 (by decide)
    obtain ⟨_, h2⟩ := hdigit 2 (by decide)
    obtain ⟨_, h3⟩ := hdigit 3 (by decide)
    exact decodeGroup_invalid_four h0 h1 h2 h3 hnone

/-- R82: a value above 2^32 - 1 is no group of bytes. -/
theorem groupOfValue_of_gt {v : Nat} (h : 4294967295 < v) : groupOfValue v = .badChunk :=
  if_pos h

/-- R83: a value of 32 bits is cut into its four bytes. -/
theorem groupOfValue_of_le {v : Nat} (h : v ≤ 4294967295) :
    groupOfValue v = .ok (groupByte (BitVec.ofNat 32 v) 0) (groupByte (BitVec.ofNat 32 v) 1)
      (groupByte (BitVec.ofNat 32 v) 2) (groupByte (BitVec.ofNat 32 v) 3) :=
  if_neg (Nat.not_lt.mpr h)

/-- R43: byte `j` as a number. -/
theorem groupByte_toNat (w : Word32) (j : Nat) : (groupByte w j).toNat = w.toNat / 2 ^ (24 - 8 * j) % 2 ^ 8 := by
  rw [groupByte, BitVec.extractLsb'_toNat, Nat.shiftRight_eq_div_pow]

/-- R43: the four bytes of a group, most significant first, spell its value. -/
theorem groupByte_toNat_bigEndian (w : Word32) :
    (groupByte w 0).toNat * 2 ^ 24 + (groupByte w 1).toNat * 2 ^ 16 + (groupByte w 2).toNat * 2 ^ 8 +
      (groupByte w 3).toNat = w.toNat := by
  have hw := w.isLt
  simp only [groupByte_toNat]
  omega

/-- R82: with a first digit of 81 or less the largest value, `82 * 85^4 - 1`, still fits in 32 bits. -/
theorem groupValue_le_of_le_81 {d0 d1 d2 d3 d4 : Nat} (h0 : d0 ≤ 81) (h1 : d1 < 85) (h2 : d2 < 85) (h3 : d3 < 85)
    (h4 : d4 < 85) : groupValue d0 d1 d2 d3 d4 ≤ 4294967295 := by
  rw [groupValue_eq]
  omega

/-- Settles O7: five valid symbols give `groupOfValue` of the unreduced value, whose two branches are the clauses. -/
theorem decodeGroupOfValidSymbols : Obligations.DecodeGroupOfValidSymbols := by
  intro s0 s1 s2 s3 s4 d0 d1 d2 d3 d4 v h0 h1 h2 h3 h4 hv
  rw [← groupValue_eq] at hv
  subst hv
  rw [decodeGroup_valid h0 h1 h2 h3 h4]
  refine ⟨fun hgt => ⟨groupOfValue_of_gt hgt, ?_⟩, fun hle => ⟨_, _, _, _, groupOfValue_of_le hle, ?_⟩⟩
  · by_contra hd0
    have hle := groupValue_le_of_le_81 (d0 := d0) (by omega) (digit?_lt h1) (digit?_lt h2) (digit?_lt h3) (digit?_lt h4)
    omega
  · rw [groupByte_toNat_bigEndian, BitVec.toNat_ofNat, Nat.mod_eq_of_lt (by omega)]

end Sys2Proof.Machine

/-! `GRP` (spec/40_armor_decoder.md R85): the command by `done`, and a group's effect by what is latched and by what
`DecodeGroup` answered. -/

namespace Sys2Proof.Machine

theorem exec_grp_of_done {s : State} (h : s.done = true) (s0 s1 s2 s3 s4 : Byte) :
    exec (.grp s0 s1 s2 s3 s4) s = .next s :=
  if_pos h

theorem exec_grp_of_open {s : State} (h : s.done = false) (s0 s1 s2 s3 s4 : Byte) :
    exec (.grp s0 s1 s2 s3 s4) s = .next (s.groupEffect (decodeGroup s0 s1 s2 s3 s4)).countGroup :=
  if_neg (by simp [h])

/-- An earlier decode error stands, whatever the group. -/
theorem State.groupEffect_of_decodeError {s : State} (h : s.err = .invalidByte ∨ s.err = .invalidChunk)
    (r : GroupResult) : s.groupEffect r = s :=
  if_pos (ErrKind.isDecodeError_iff.mpr h)

theorem State.groupEffect_badByte {s : State} (h : ¬(s.err = .invalidByte ∨ s.err = .invalidChunk)) (k : Fin 5)
    (b : Byte) : s.groupEffect (.badByte k b) = s.raise .invalidByte (s.pos + BitVec.ofNat 64 k.val) b :=
  if_neg (mt ErrKind.isDecodeError_iff.mp h)

theorem State.groupEffect_badChunk {s : State} (h : ¬(s.err = .invalidByte ∨ s.err = .invalidChunk)) :
    s.groupEffect .badChunk = s.raise .invalidChunk s.pos 0#8 :=
  if_neg (mt ErrKind.isDecodeError_iff.mp h)

/-- Decoded bytes reach the assembler while no error is latched. -/
theorem State.groupEffect_ok_of_none {s : State} (h : s.err = .none) (b0 b1 b2 b3 : Byte) :
    s.groupEffect (.ok b0 b1 b2 b3) = s.assemble (packGroup b0 b1 b2 b3) := by
  simp [State.groupEffect, ErrKind.isDecodeError, h]

/-- Decoded bytes are dropped while any error is latched. -/
theorem State.groupEffect_ok_of_latched {s : State} (h : s.err ≠ .none) (b0 b1 b2 b3 : Byte) :
    s.groupEffect (.ok b0 b1 b2 b3) = s := by
  simp [State.groupEffect, h]

theorem State.assemble_first {s : State} (h : s.holdV = false) (d : Word32) : s.assemble d = s.holdGroup d :=
  if_neg (by simp [h])

theorem State.assemble_second {s : State} (h : s.holdV = true) (d : Word32) :
    s.assemble d = s.dropHold.xformStep (joinGroups s.hold d) :=
  if_pos h

/-- A transform step leaves `pos`, so counting the group after the step counts it from the state before. -/
theorem State.countGroup_xformStep (s : State) (w : Word64) :
    (s.xformStep w).countGroup = { s.xformStep w with pos := s.pos + 5#64 } := by
  rw [State.countGroup, State.xformStep_pos]

/-- R71, R85: the Word of the pair, written as R85 writes it. -/
theorem joinGroups_eq_append (hold : Word32) (b0 b1 b2 b3 : Byte) :
    joinGroups hold (packGroup b0 b1 b2 b3) = b3 ++ b2 ++ b1 ++ b0 ++ hold := rfl

/-- Settles O22: with `done = 0` the command is the group's effect, counted; each clause is the equation of its
guard. -/
theorem grpDecodesAndFeedsTheAssembler : Obligations.GrpDecodesAndFeedsTheAssembler := by
  intro s s0 s1 s2 s3 s4 next r counted earlier
  have hnext (hopen : s.done = false) : next = .next (s.groupEffect r).countGroup :=
    exec_grp_of_open hopen s0 s1 s2 s3 s4
  refine ⟨fun hdone => exec_grp_of_done hdone s0 s1 s2 s3 s4, fun hopen hearlier => ?earlier,
    fun k b hopen hfresh hr => ?badByte, fun hopen hfresh hr => ?badChunk,
    fun b0 b1 b2 b3 hopen hr => ⟨fun herr hfirst => ?first, fun herr hsecond => ?second, fun herr => ?dropped⟩⟩
  case earlier => rw [hnext hopen, State.groupEffect_of_decodeError hearlier]; rfl
  case badByte => rw [hnext hopen, hr, State.groupEffect_badByte hfresh]; rfl
  case badChunk => rw [hnext hopen, hr, State.groupEffect_badChunk hfresh]; rfl
  case first => rw [hnext hopen, hr, State.groupEffect_ok_of_none herr, State.assemble_first hfirst]; rfl
  case second =>
    rw [hnext hopen, hr, State.groupEffect_ok_of_none herr, State.assemble_second hsecond, State.countGroup_xformStep,
      joinGroups_eq_append]
    rfl
  case dropped => rw [hnext hopen, hr, State.groupEffect_ok_of_latched herr]; rfl

end Sys2Proof.Machine

/-! The length of a decoded text (spec/40_armor_decoder.md R86, R87). -/

namespace Sys2Proof.Machine

/-- R46: a group for every five symbols; the four forms of a shorter rest, and the empty text, make none. -/
@[simp] theorem groups_length : ∀ text : List Byte, (groups text).length = text.length / 5
  | _ :: _ :: _ :: _ :: _ :: rest => by
    simp only [groups, List.length_cons, groups_length rest]
    omega
  | [] | [_] | [_, _] | [_, _, _] | [_, _, _, _] => by simp [groups]

/-- R86: a loop that ends in `Ok` has added four bytes for every group. -/
theorem decodeGroups_ok_length {p : Nat} {raw out : List Byte} {gs : List TextGroup}
    (h : decodeGroups p raw gs = .ok out) : out.length = raw.length + 4 * gs.length := by
  fun_induction decodeGroups p raw gs with
  | case1 p raw => cases h; simp
  | case2 => cases h
  | case3 => cases h
  | case4 p raw g gs b0 b1 b2 b3 hg ih =>
    have hlen := ih h
    simp only [List.length_append, List.length_cons, List.length_nil] at hlen ⊢
    omega

/-- R86: a text that decodes is whole groups, and the loop decodes them. -/
theorem decodeText_ok {text raw : List Byte} (h : decodeText text = .ok raw) :
    text.length % 5 = 0 ∧ decodeGroups 0 [] (groups text) = .ok raw := by
  unfold decodeText at h
  split at h
  · cases h
  · exact ⟨Decidable.not_not.mp ‹_›, h⟩

/-- Settles O35: four bytes for every group, a group for every five symbols. -/
theorem decodeLengthLaw : Obligations.DecodeLengthLaw := by
  refine ⟨rfl, fun text raw h => ?_⟩
  obtain ⟨-, hloop⟩ := decodeText_ok h
  have hlen := decodeGroups_ok_length hloop
  rw [groups_length, List.length_nil] at hlen
  omega

end Sys2Proof.Machine

/-! `TStep` in natural numbers (spec/41_chained_transform.md R100): the halves of a Word, their mixture with the index,
the divisor, and the quotient with its low byte. -/

namespace Sys2Proof.Machine

theorem valueOf_toNat (word : Word64) : (valueOf word).toNat = word.toNat % 2 ^ 32 := by
  simp [valueOf]

theorem keyOf_toNat (word : Word64) : (keyOf word).toNat = word.toNat / 2 ^ 32 := by
  have hword := word.isLt
  rw [keyOf, BitVec.extractLsb'_toNat, Nat.shiftRight_eq_div_pow, Nat.mod_eq_of_lt (by omega)]

/-- R100 steps 4 and 5. -/
theorem mixedOf_toNat (word : Word64) (idx : Word32) :
    (mixedOf word idx).toNat = ((word.toNat % 2 ^ 32) ^^^ (word.toNat / 2 ^ 32)) ^^^ idx.toNat := by
  rw [mixedOf, BitVec.toNat_xor, BitVec.toNat_xor, valueOf_toNat, keyOf_toNat]

/-- R100 step 6, the doubling reduced modulo 2^32. -/
theorem divisorOf_toNat (prev : Word32) : (divisorOf prev).toNat = 2 * prev.toNat % 2 ^ 32 :=
  BitVec.toNat_mul ..

theorem divisorOf_eq_zero_iff_toNat {prev : Word32} : divisorOf prev = 0#32 ↔ 2 * prev.toNat % 2 ^ 32 = 0 := by
  rw [← BitVec.toNat_inj, divisorOf_toNat, BitVec.toNat_ofNat, Nat.zero_mod]

/-- R100 step 7: the 32-bit quotient is the quotient of the numbers, which the division cannot widen. -/
theorem mixedOf_div_divisorOf (word : Word64) (prev idx : Word32) :
    mixedOf word idx / divisorOf prev = BitVec.ofNat 32
      ((((word.toNat % 2 ^ 32) ^^^ (word.toNat / 2 ^ 32)) ^^^ idx.toNat) / (2 * prev.toNat % 2 ^ 32)) := by
  rw [← mixedOf_toNat, ← divisorOf_toNat, ← BitVec.toNat_udiv, BitVec.ofNat_toNat, BitVec.setWidth_eq]

/-- R100 step 8: the low byte of a number of 32 bits is the low byte of the number. -/
theorem low_byte_ofNat (n : Nat) : (BitVec.ofNat 32 n).extractLsb' 0 8 = BitVec.ofNat 8 n := by
  apply BitVec.eq_of_toNat_eq
  rw [BitVec.extractLsb'_toNat, Nat.shiftRight_zero, BitVec.toNat_ofNat, BitVec.toNat_ofNat]
  omega

/-- The counterpart of `tStep_divZero`, where the step divides. -/
theorem tStep_of_divisorOf_ne {prev : Word32} (h : divisorOf prev ≠ 0#32) (word : Word64) (idx : Word32) :
    tStep word prev idx =
      .ok ((mixedOf word idx / divisorOf prev).extractLsb' 0 8) (mixedOf word idx / divisorOf prev) :=
  if_neg h

/-- Settles O18: the divisor decides between the two outcomes, and the quotient is that of the numbers. -/
theorem tStepIsTheDocumentsAlgorithm : Obligations.TStepIsTheDocumentsAlgorithm := by
  intro word prev idx key value mixed divisor quotient
  refine ⟨fun hzero => tStep_divZero.mpr (divisorOf_eq_zero_iff_toNat.mpr hzero), fun hne => ?_⟩
  have hquotient : mixedOf word idx / divisorOf prev = BitVec.ofNat 32 quotient := mixedOf_div_divisorOf word prev idx
  rw [tStep_of_divisorOf_ne (mt divisorOf_eq_zero_iff_toNat.mp hne), hquotient, low_byte_ofNat]

end Sys2Proof.Machine

/-! `XformStep` and `WIN` (spec/41_chained_transform.md R104, R105): the step by what `TStep` answers, the command by
`done` and by what is latched. -/

namespace Sys2Proof.Machine

theorem State.xformStep_of_divZero {s : State} {w : Word64} (h : tStep w s.prev s.idx = .divZero) :
    s.xformStep w = s.raise .divisionByZero (s.idx.setWidth 64) 0#8 := by
  simp [State.xformStep, h]

theorem State.xformStep_of_ok {s : State} {w : Word64} {byte : Byte} {quotient : Word32}
    (h : tStep w s.prev s.idx = .ok byte quotient) : s.xformStep w = s.advance byte quotient := by
  simp [State.xformStep, h]

/-- Settles O20: the two outcomes of the step, with the fields that `raise` and `advance` write. -/
theorem xformStepEmitsOrLatches : Obligations.XformStepEmitsOrLatches :=
  fun _ _ => ⟨State.xformStep_of_divZero, fun _ _ => State.xformStep_of_ok⟩

theorem exec_win_of_done {s : State} (h : s.done = true) (word : Word64) : exec (.win word) s = .next s :=
  if_pos h

theorem exec_win_of_latched {s : State} (h : s.err ≠ .none) (word : Word64) : exec (.win word) s = .next s := by
  cases hd : s.done <;> simp [exec, execWin, hd, h]

theorem exec_win_of_open {s : State} (hopen : s.done = false) (herr : s.err = .none) (word : Word64) :
    exec (.win word) s = .next (s.xformStep word) := by
  simp [exec, execWin, hopen, herr]

/-- R21: the carried byte of a quotient, as the number that `prev` takes. -/
theorem widenByte_ofNat (n : Nat) : widenByte (BitVec.ofNat 8 n) = BitVec.ofNat 32 (n % 256) :=
  BitVec.eq_of_toNat_eq (by rw [widenByte_toNat, BitVec.toNat_ofNat, BitVec.toNat_ofNat]; omega)

/-- R22: the index counts on modulo 2^32. -/
theorem idx_succ_eq_ofNat (idx : Word32) : idx + 1#32 = BitVec.ofNat 32 (idx.toNat + 1) := by
  rw [BitVec.ofNat_add, BitVec.ofNat_toNat, BitVec.setWidth_eq]

/-- Settles O21: with the message open and no error latched the command is one transform step, which goes by the
result of `TStep` in natural numbers. -/
theorem winRunsOneTransformStep : Obligations.WinRunsOneTransformStep := by
  intro s word mixed divisor
  obtain ⟨hdivZero, hok⟩ := tStepIsTheDocumentsAlgorithm word s.prev s.idx
  refine ⟨fun hidle => ?idle, fun hopen herr hzero => ?divZero, fun hopen herr hne => ?emits⟩
  case idle => exact hidle.elim (exec_win_of_done · word) (exec_win_of_latched · word)
  case divZero =>
    rw [exec_win_of_open hopen herr, State.xformStep_of_divZero (hdivZero hzero)]
    rfl
  case emits =>
    rw [exec_win_of_open hopen herr, State.xformStep_of_ok (hok hne), ← widenByte_ofNat, ← idx_succ_eq_ofNat]
    rfl

end Sys2Proof.Machine

/-! The length and the truncation of `Transform` (spec/41_chained_transform.md R106, R107). -/

namespace Sys2Proof.Machine

/-- R106: a loop that ends in `Ok` has added one byte for every Window. -/
theorem transformWords_ok_length {prev idx : Word32} {before out : List Byte} {words : List Word64}
    (h : transformWords prev idx before words = .ok out) : out.length = before.length + words.length := by
  fun_induction transformWords prev idx before words with
  | case1 => cases h; simp
  | case2 => cases h
  | case3 prev idx before w ws byte quotient hstep ih =>
    have hlen := ih h
    simp only [List.length_append, List.length_cons, List.length_nil] at hlen ⊢
    omega

theorem windows_of_length_lt {raw : List Byte} (h : raw.length < 8) : windows raw = [] :=
  List.eq_nil_of_length_eq_zero (by rw [windows_length, Nat.div_eq_of_lt h])

/-- R44, R109: the Windows of the first `8 m` bytes are the first `m` Windows. -/
theorem windows_take (raw : List Byte) (m : Nat) : windows (raw.take (8 * m)) = (windows raw).take m := by
  fun_induction windows raw generalizing m with
  | case1 b0 b1 b2 b3 b4 b5 b6 b7 rest ih =>
    cases m with
    | zero => simp [windows]
    | succ m => simp only [Nat.mul_succ, List.take_succ_cons, windows, ih m]
  | case2 raw hshort =>
    have hnone : windows raw = [] := windows.eq_2 raw hshort
    have hlen : raw.length / 8 = 0 := by rw [← windows_length, hnone, List.length_nil]
    rw [windows_of_length_lt (by rw [List.length_take]; omega), List.take_nil]

/-- R107: the whole Windows end where the trailing bytes begin. -/
theorem windows_take_whole (raw : List Byte) : windows (raw.take (8 * (raw.length / 8))) = windows raw := by
  rw [windows_take, ← windows_length, List.take_length]

theorem transform_take_whole (raw : List Byte) : transform (raw.take (8 * (raw.length / 8))) = transform raw := by
  rw [transform, windows_take_whole, transform]

/-- Settles O36: one byte for every Window, and the Windows are those of the bytes before the trailing ones. -/
theorem transformTruncationLaw : Obligations.TransformTruncationLaw := by
  intro raw
  refine ⟨fun out h => ?length, fun hshort => ?short, fun raw' hlen htake => ?trailing, transform_take_whole raw⟩
  case length => simpa using transformWords_ok_length h
  case short => rw [transform, windows_of_length_lt hshort]; rfl
  case trailing => rw [← transform_take_whole raw', hlen, htake, transform_take_whole]

end Sys2Proof.Machine

/-! The control commands (spec/42_control_commands.md R120 to R122): `INIT` in every state, `END` by `done` and by
`ntail`, and the closed message, which the other three commands leave as it is. -/

namespace Sys2Proof.Machine

/-- Settles O17: `INIT` has the one arm `restart`, whose values are the reset column of R20. -/
theorem initRestartsTheMessage : Obligations.InitRestartsTheMessage := fun _ => rfl

theorem exec_endMsg_of_done {s : State} (h : s.done = true) (ntail : BitVec 3) : exec (.endMsg ntail) s = .next s :=
  if_pos h

theorem exec_endMsg_of_open {s : State} (h : s.done = false) (ntail : BitVec 3) :
    exec (.endMsg ntail) s = .next (s.tailEffect ntail).dropHold.close :=
  if_neg (by simp [h])

theorem State.tailEffect_zero (s : State) : s.tailEffect 0#3 = s := rfl

theorem State.tailEffect_wrongLength {ntail : BitVec 3} (hpos : 1 ≤ ntail.toNat) (hle : ntail.toNat ≤ 4) (s : State) :
    s.tailEffect ntail = s.raise .invalidLength (s.pos + ntail.setWidth 64) 0#8 := by
  have hne : ntail ≠ 0#3 := by rintro rfl; simp at hpos
  rw [State.tailEffect, if_neg (by omega), if_pos hne]

theorem State.tailEffect_illegal {ntail : BitVec 3} (h : 5 ≤ ntail.toNat) (s : State) :
    s.tailEffect ntail = s.raise .illegalCommand s.pos (ntail.setWidth 8) :=
  if_pos h

/-- R24, R121: the length that `END` reports counts the tail modulo 2^64. -/
theorem pos_add_tail_eq_ofNat (pos : Word64) (ntail : BitVec 3) :
    pos + ntail.setWidth 64 = BitVec.ofNat 64 (pos.toNat + ntail.toNat) := by
  rw [BitVec.ofNat_add, BitVec.ofNat_toNat, BitVec.ofNat_toNat, BitVec.setWidth_eq]

/-- Settles O23: with `done = 0` the command is the tail's verdict with the group dropped and the message closed; each
clause is the equation of its `ntail`. -/
theorem endClosesTheMessage : Obligations.EndClosesTheMessage := by
  intro s ntail closed
  refine ⟨fun hdone => exec_endMsg_of_done hdone ntail, fun hopen hzero => ?zero, fun hopen hpos hle => ?wrongLength,
    fun hopen hillegal => ?illegal⟩
  case zero =>
    obtain rfl : ntail = 0#3 := BitVec.eq_of_toNat_eq hzero
    rw [exec_endMsg_of_open hopen, State.tailEffect_zero]
    rfl
  case wrongLength =>
    rw [exec_endMsg_of_open hopen, State.tailEffect_wrongLength hpos hle, ← pos_add_tail_eq_ofNat]
    rfl
  case illegal =>
    rw [exec_endMsg_of_open hopen, State.tailEffect_illegal hillegal, BitVec.ofNat_toNat]
    rfl

/-- R122: a closed message is left as it is by every command that does not start a new one. -/
theorem exec_of_done {i : Instr} {s : State} (hdone : s.done = true) (hi : i ≠ .init) : exec i s = .next s := by
  cases i with
  | init => exact absurd rfl hi
  | grp s0 s1 s2 s3 s4 => exact exec_grp_of_done hdone s0 s1 s2 s3 s4
  | win word => exact exec_win_of_done hdone word
  | endMsg ntail => exact exec_endMsg_of_done hdone ntail

/-- A command that leaves `done = 1` is `INIT`. -/
theorem eq_init_of_exec_reopens {i : Instr} {s t : State} (hdone : s.done = true) (h : exec i s = .next t)
    (hopen : t.done = false) : i = .init := by
  by_contra hi
  obtain rfl : s = t := by simpa [exec_of_done hdone hi] using h
  simp [hdone] at hopen

/-- Settles O24: of the three things a step can do, holding the state keeps `done`, and a command that leaves `done = 1`
is `INIT`. -/
theorem onlyInitOrResetLeavesDone : Obligations.OnlyInitOrResetLeavesDone := by
  refine ⟨fun _ _ => exec_of_done, fun s t hdone hstep hopen => ?_⟩
  obtain ⟨-, rfl⟩ | ⟨rest, hin, -⟩ | ⟨w, rest, hin, hexec⟩ := step_cases hstep
  · simp [hdone] at hopen
  · exact ⟨.rst, rest, hin, rfl⟩
  · have hinit : decode w = .init := eq_init_of_exec_reopens (s := { s with input := rest }) hdone hexec hopen
    exact ⟨.cmd w, rest, hin, by simp [Input.startsMessage, hinit]⟩

end Sys2Proof.Machine

/-! Sending a script (spec/30_encoding.md R75, spec/20_memory.md R48): the state each command leaves, and the run of a
script as the fold of that over its commands. No command reads what the host has yet to send. -/

namespace Sys2Proof.Laws

/-- R60 to R63, R67, R68: a command's word, its ignored bits 0, decodes to the command. -/
theorem decode_encode (i : Instr) : decode (encode i) = i := by
  cases i with
  | init => exact decode_cmdWord_init 0#64
  | grp s0 s1 s2 s3 s4 => exact decode_cmdWord_grp 0#24 s0 s1 s2 s3 s4
  | win word => exact decode_cmdWord_win word
  | endMsg ntail => exact decode_cmdWord_endMsg 0#61 ntail

end Sys2Proof.Laws

namespace Sys2Proof.Machine

open Sys2Proof.Laws (decode_encode)

/-- The state a command leaves: every command completes (R184). -/
def State.effect (s : State) (i : Instr) : State :=
  match exec i s with
  | .next t => t
  | .fault _ => s
  | .refused _ => s

theorem State.effect_of_exec {s t : State} {i : Instr} (h : exec i s = .next t) : s.effect i = t := by
  rw [State.effect, h]

theorem exec_eq_effect (i : Instr) (s : State) : exec i s = .next (s.effect i) := by
  obtain ⟨t, h⟩ := exec_completes i s
  rw [State.effect_of_exec h, h]

theorem State.effect_init (s : State) : s.effect .init = s.restart := rfl

theorem State.effect_win_of_open {s : State} (hopen : s.done = false) (herr : s.err = .none) (w : Word64) :
    s.effect (.win w) = s.xformStep w :=
  State.effect_of_exec (exec_win_of_open hopen herr w)

theorem State.effect_win_of_latched {s : State} (herr : s.err ≠ .none) (w : Word64) : s.effect (.win w) = s :=
  State.effect_of_exec (exec_win_of_latched herr w)

theorem State.effect_group_of_open {s : State} (hopen : s.done = false) (g : TextGroup) :
    s.effect g.command = (s.groupEffect g.decode).countGroup :=
  State.effect_of_exec (exec_grp_of_open hopen g.s0 g.s1 g.s2 g.s3 g.s4)

theorem State.effect_endMsg_of_open {s : State} (hopen : s.done = false) (ntail : BitVec 3) :
    s.effect (.endMsg ntail) = (s.tailEffect ntail).dropHold.close :=
  State.effect_of_exec (exec_endMsg_of_open hopen ntail)

/-! What the host has yet to send: every operation carries it along unread. -/

theorem State.xformStep_offer (s : State) (script : List Instr) (w : Word64) :
    (s.offer script).xformStep w = (s.xformStep w).offer script := by
  obtain ⟨hstep, h⟩ | ⟨b, q, hstep, h⟩ := s.xformStep_cases w
  · rw [h, State.xformStep_of_divZero (s := s.offer script) hstep]
    rfl
  · rw [h, State.xformStep_of_ok (s := s.offer script) hstep]
    rfl

theorem State.assemble_offer (s : State) (script : List Instr) (d : Word32) :
    (s.offer script).assemble d = (s.assemble d).offer script := by
  obtain ⟨hhold, h⟩ | ⟨hhold, h⟩ := s.assemble_cases d
  · rw [h, State.assemble_first (s := s.offer script) hhold]
    rfl
  · rw [h, State.assemble_second (s := s.offer script) hhold, ← State.xformStep_offer]
    rfl

theorem State.groupEffect_offer (s : State) (script : List Instr) (r : GroupResult) :
    (s.offer script).groupEffect r = (s.groupEffect r).offer script := by
  by_cases hearlier : s.err = .invalidByte ∨ s.err = .invalidChunk
  · rw [State.groupEffect_of_decodeError hearlier, State.groupEffect_of_decodeError (s := s.offer script) hearlier]
  · cases r with
    | badByte k b =>
      rw [State.groupEffect_badByte hearlier, State.groupEffect_badByte (s := s.offer script) hearlier]
      rfl
    | badChunk =>
      rw [State.groupEffect_badChunk hearlier, State.groupEffect_badChunk (s := s.offer script) hearlier]
      rfl
    | ok b0 b1 b2 b3 =>
      by_cases herr : s.err = .none
      · rw [State.groupEffect_ok_of_none herr, State.groupEffect_ok_of_none (s := s.offer script) herr,
          State.assemble_offer]
      · rw [State.groupEffect_ok_of_latched herr, State.groupEffect_ok_of_latched (s := s.offer script) herr]

theorem State.tailEffect_offer (s : State) (script : List Instr) (ntail : BitVec 3) :
    (s.offer script).tailEffect ntail = (s.tailEffect ntail).offer script := by
  unfold State.tailEffect
  split_ifs <;> rfl

/-- R34: the host's script is no state of the block. -/
theorem State.effect_offer (s : State) (script : List Instr) (i : Instr) :
    (s.offer script).effect i = (s.effect i).offer script := by
  apply State.effect_of_exec
  obtain ⟨rfl, h⟩ | ⟨hi, hidle, h⟩ | ⟨w, rfl, hopen, herr, h⟩ | ⟨s0, s1, s2, s3, s4, rfl, hopen, h⟩ |
    ⟨ntail, rfl, hopen, h⟩ := exec_cases (exec_eq_effect i s) <;> rw [h]
  · rfl
  · obtain hdone | ⟨⟨w, rfl⟩, herr⟩ := hidle
    · exact exec_of_done (s := s.offer script) hdone hi
    · exact exec_win_of_latched (s := s.offer script) herr w
  · rw [exec_win_of_open (s := s.offer script) hopen herr, State.xformStep_offer]
  · rw [exec_grp_of_open (s := s.offer script) hopen, State.groupEffect_offer]
    rfl
  · rw [exec_endMsg_of_open (s := s.offer script) hopen, State.tailEffect_offer]
    rfl

/-- The state a script leaves, one command after the other (R48). -/
def State.execAll (s : State) (script : List Instr) : State :=
  script.foldl State.effect s

@[simp] theorem State.execAll_nil (s : State) : s.execAll [] = s := rfl

@[simp] theorem State.execAll_cons (s : State) (i : Instr) (script : List Instr) :
    s.execAll (i :: script) = (s.effect i).execAll script := rfl

theorem State.execAll_append (s : State) (first rest : List Instr) :
    s.execAll (first ++ rest) = (s.execAll first).execAll rest :=
  List.foldl_append

/-- R75: a step serves the first command of the script. -/
theorem step_offer_cons (s : State) (i : Instr) (script : List Instr) :
    step (s.offer (i :: script)) = .next ((s.effect i).offer script) := by
  have hserve : step (s.offer (i :: script)) = exec (decode (encode i)) (s.offer script) := rfl
  rw [hserve, decode_encode, exec_eq_effect, State.effect_offer]

/-- One step a command: as many steps as `first` has commands serve it and leave the rest of the script offered. -/
theorem runSteps_offer_append (s : State) (first rest : List Instr) :
    runSteps first.length (s.offer (first ++ rest)) = .next ((s.execAll first).offer rest) := by
  induction first generalizing s with
  | nil => rfl
  | cons i first ih =>
    rw [List.length_cons, List.cons_append, runSteps_succ (step_offer_cons s i (first ++ rest)), ih, State.execAll_cons]

theorem runSteps_offer (s : State) (script : List Instr) :
    runSteps script.length (s.offer script) = .next ((s.execAll script).offer []) := by
  simpa only [List.append_nil] using runSteps_offer_append s script []

end Sys2Proof.Machine

/-! The verdict of a message (spec/43_pipeline_reference.md R138) once it is closed. -/

namespace Sys2Proof.Machine

theorem State.verdict_close_of_none {s : State} (h : s.err = .none) : s.close.verdict = some (.ok s.out) := by
  simp [State.verdict, h]

theorem State.verdict_close_of_latched {s : State} (h : s.err ≠ .none) :
    s.close.verdict = some (.err s.err s.errPos.toNat s.errByte) := by
  simp [State.verdict, h]

theorem State.verdict_close_ok {s : State} {out : List Byte} (h : s.close.verdict = some (.ok out)) :
    s.err = .none ∧ s.out = out := by
  by_cases herr : s.err = .none
  · exact ⟨herr, by simpa [State.verdict_close_of_none herr] using h⟩
  · simp [State.verdict_close_of_latched herr] at h

theorem State.verdict_close_err {s : State} {k : ErrKind} {p : Nat} {b : Byte}
    (h : s.close.verdict = some (.err k p b)) :
    s.err ≠ .none ∧ s.err = k ∧ s.errPos.toNat = p ∧ s.errByte = b := by
  by_cases herr : s.err = .none
  · simp [State.verdict_close_of_none herr] at h
  · exact ⟨herr, by simpa [State.verdict_close_of_latched herr] using h⟩

end Sys2Proof.Machine

/-! A message of `WIN` commands (spec/43_pipeline_reference.md R137, R139): the fold of the command over the Windows
is the loop of `Transform` (spec/41_chained_transform.md R106), a failing Window the last that has an effect. -/

namespace Sys2Proof.Machine

theorem transformWords_cons_of_divZero {prev idx : Word32} {w : Word64} (h : tStep w prev idx = .divZero)
    (out : List Byte) (ws : List Word64) :
    transformWords prev idx out (w :: ws) = .err .divisionByZero idx.toNat 0#8 := by
  simp [transformWords, h]

theorem transformWords_cons_of_ok {prev idx : Word32} {w : Word64} {byte : Byte} {quotient : Word32}
    (h : tStep w prev idx = .ok byte quotient) (out : List Byte) (ws : List Word64) :
    transformWords prev idx out (w :: ws) = transformWords (widenByte byte) (idx + 1#32) (out ++ [byte]) ws := by
  simp [transformWords, h]

/-- R106: the loop fails with one kind, at an index. -/
theorem transformWords_err {prev idx : Word32} {out : List Byte} {ws : List Word64} {k : ErrKind} {i : Nat} {b : Byte}
    (h : transformWords prev idx out ws = .err k i b) : k = .divisionByZero ∧ i < 2 ^ 32 ∧ b = 0#8 := by
  fun_induction transformWords prev idx out ws with
  | case1 => cases h
  | case2 prev idx =>
    cases h
    exact ⟨rfl, idx.isLt, rfl⟩
  | case3 prev idx out w ws byte quotient hstep ih => exact ih h

theorem transform_err {raw : List Byte} {k : ErrKind} {i : Nat} {b : Byte} (h : transform raw = .err k i b) :
    k = .divisionByZero ∧ i < 2 ^ 32 ∧ b = 0#8 :=
  transformWords_err h

/-- R105: with an error latched no `WIN` has an effect. -/
theorem State.execAll_wins_of_latched {s : State} (h : s.err ≠ .none) (ws : List Word64) :
    s.execAll (ws.map .win) = s := by
  induction ws with
  | nil => rfl
  | cons w ws ih => rw [List.map_cons, State.execAll_cons, State.effect_win_of_latched h, ih]

/-- What the transform step keeps, a sequence of `WIN`s in an open message keeps. -/
theorem State.execAll_wins_keeps {P : State → Prop}
    (hstep : ∀ (s : State) (w : Word64), P s → s.err = .none → P (s.xformStep w)) {s : State} (hs : P s)
    (hopen : s.done = false) (ws : List Word64) : P (s.execAll (ws.map .win)) := by
  induction ws generalizing s with
  | nil => exact hs
  | cons w ws ih =>
    by_cases herr : s.err = .none
    · rw [List.map_cons, State.execAll_cons, State.effect_win_of_open hopen herr]
      exact ih (hstep s w hs herr) (by rwa [State.xformStep_done])
    · rwa [State.execAll_wins_of_latched herr]

/-- R139: the `WIN`s of some Windows leave the verdict that the loop of R106 answers on them, from where the state
stands. -/
theorem State.verdict_execAll_wins {s : State} (hopen : s.done = false) (herr : s.err = .none) (ws : List Word64) :
    (s.execAll (ws.map .win)).close.verdict = some (transformWords s.prev s.idx s.out ws) := by
  induction ws generalizing s with
  | nil => exact State.verdict_close_of_none herr
  | cons w ws ih =>
    rw [List.map_cons, State.execAll_cons, State.effect_win_of_open hopen herr]
    obtain ⟨hstep, h⟩ | ⟨b, q, hstep, h⟩ := s.xformStep_cases w
    · have hlatched : (s.raise .divisionByZero (s.idx.setWidth 64) 0#8).err ≠ .none := by simp
      rw [h, State.execAll_wins_of_latched hlatched, State.verdict_close_of_latched hlatched,
        transformWords_cons_of_divZero hstep, State.raise_errPos, toNat_setWidth_word64]
      rfl
    · rw [h, ih (s := s.advance b q) hopen herr, transformWords_cons_of_ok hstep]
      rfl

/-- A division by zero comes of one Window: before it no error is latched, and neither it nor what follows emits. -/
theorem State.exists_failing_win {s : State} (hopen : s.done = false) (herr : s.err = .none) {ws : List Word64}
    (hfail : (s.execAll (ws.map .win)).err ≠ .none) :
    ∃ m < ws.length, (s.execAll ((ws.take m).map .win)).err = .none ∧
      (s.execAll (ws.map .win)).out = (s.execAll ((ws.take m).map .win)).out ∧
      s.execAll ((ws.take (m + 1)).map .win) = s.execAll (ws.map .win) := by
  induction ws generalizing s with
  | nil => exact absurd herr hfail
  | cons w ws ih =>
    have heffect : s.effect (.win w) = s.xformStep w := State.effect_win_of_open hopen herr w
    obtain ⟨-, h⟩ | ⟨b, q, -, h⟩ := s.xformStep_cases w
    · have hlatched : (s.effect (.win w)).err ≠ .none := by simp [heffect, h]
      have hrest : s.execAll ((w :: ws).map .win) = s.effect (.win w) := State.execAll_wins_of_latched hlatched ws
      rw [hrest]
      exact ⟨0, by simp, herr, by rw [heffect, h]; rfl, rfl⟩
    · have hopen' : (s.effect (.win w)).done = false := by simpa [heffect] using hopen
      have herr' : (s.effect (.win w)).err = .none := by simpa [heffect, h] using herr
      obtain ⟨m, hm, hbefore, hout, hafter⟩ := ih hopen' herr' hfail
      exact ⟨m + 1, by simpa using hm, hbefore, hout, hafter⟩

/-- What holds of a message between its `INIT` and its `END` while only `WIN`s are sent, beyond the invariants of R36:
`prev` is the last byte emitted, no symbol is counted and no group is held. -/
structure WinMessageInv (s : State) : Prop extends MessageInv s where
  prev_last : s.prev = ((s.out.getLast?.map widenByte).getD Config.prevInit)
  still_open : s.done = false
  no_symbols : s.pos = 0#64
  no_group : s.holdV = false

theorem winMessageInv_restart (s : State) : WinMessageInv s.restart :=
  { messageInv_restart s with
    prev_last := rfl
    still_open := rfl
    no_symbols := rfl
    no_group := rfl }

theorem WinMessageInv.xformStep {s : State} (h : WinMessageInv s) (herr : s.err = .none) (w : Word64) :
    WinMessageInv (s.xformStep w) :=
  { h.toMessageInv.xformStep herr w with
    prev_last := by
      obtain ⟨-, heq⟩ | ⟨b, q, -, heq⟩ := s.xformStep_cases w
      · simpa [heq] using h.prev_last
      · simp [heq]
    still_open := by rw [State.xformStep_done, h.still_open]
    no_symbols := by rw [State.xformStep_pos, h.no_symbols]
    no_group := by rw [State.xformStep_holdV, h.no_group] }

/-- The state after `INIT` and the `WIN`s of a byte sequence (R137). -/
def State.transformed (s : State) (raw : List Byte) : State :=
  s.restart.execAll ((windows raw).map .win)

theorem State.transformed_inv (s : State) (raw : List Byte) : WinMessageInv (s.transformed raw) :=
  State.execAll_wins_keeps (fun _ w hs herr => hs.xformStep herr w) (winMessageInv_restart s) rfl (windows raw)

/-- R139: the verdict of the message, were it closed. -/
theorem State.verdict_transformed (s : State) (raw : List Byte) :
    (s.transformed raw).close.verdict = some (transform raw) :=
  State.verdict_execAll_wins (s := s.restart) rfl rfl (windows raw)

theorem State.transformed_of_ok (s : State) {raw out : List Byte} (h : transform raw = .ok out) :
    (s.transformed raw).err = .none ∧ (s.transformed raw).out = out :=
  State.verdict_close_ok (by rw [State.verdict_transformed, h])

/-- R139: the carried state after a successful transform. -/
theorem State.transformed_carried_of_ok (s : State) {raw out : List Byte} (h : transform raw = .ok out) :
    (s.transformed raw).idx = BitVec.ofNat 32 out.length ∧
      (s.transformed raw).prev = ((out.getLast?.map widenByte).getD Config.prevInit) := by
  have hinv := s.transformed_inv raw
  obtain ⟨-, rfl⟩ := s.transformed_of_ok h
  exact ⟨hinv.out_count.symm, hinv.prev_last⟩

theorem State.transformed_of_err (s : State) {raw : List Byte} {k : ErrKind} {i : Nat} {b : Byte}
    (h : transform raw = .err k i b) :
    (s.transformed raw).err = .divisionByZero ∧ (s.transformed raw).errPos.toNat = i ∧
      (s.transformed raw).errByte = 0#8 := by
  obtain ⟨rfl, -, rfl⟩ := transform_err h
  exact (State.verdict_close_err (by rw [State.verdict_transformed, h])).2

/-- R139: the carried state after a division by zero. -/
theorem State.transformed_carried_of_err (s : State) {raw : List Byte} {k : ErrKind} {i : Nat} {b : Byte}
    (h : transform raw = .err k i b) : (s.transformed raw).prev = 0#32 ∧ (s.transformed raw).idx.toNat = i := by
  obtain ⟨herr, hpos, -⟩ := s.transformed_of_err h
  obtain ⟨hprev, hidx⟩ := (s.transformed_inv raw).div_zero herr
  exact ⟨hprev, by rw [← hpos, hidx, toNat_setWidth_word64]⟩

theorem State.transformed_exists_failing (s : State) {raw : List Byte} (hfail : (s.transformed raw).err ≠ .none) :
    ∃ m < raw.length / 8, (s.transformed (raw.take (8 * m))).err = .none ∧
      (s.transformed raw).out = (s.transformed (raw.take (8 * m))).out ∧
      s.transformed (raw.take (8 * (m + 1))) = s.transformed raw := by
  simpa only [State.transformed, windows_length, windows_take] using
    State.exists_failing_win (s := s.restart) rfl rfl hfail

/-- R139: the failing Window is `m`, its index taken modulo 2^32; the bytes are those of the Windows before it, and the
Windows after it change nothing. -/
theorem State.transformed_failing_window (s : State) {raw : List Byte} {k : ErrKind} {i : Nat} {b : Byte}
    (h : transform raw = .err k i b) :
    ∃ m < raw.length / 8, i = m % 2 ^ 32 ∧ transform (raw.take (8 * m)) = .ok (s.transformed raw).out ∧
      s.transformed (raw.take (8 * (m + 1))) = s.transformed raw := by
  obtain ⟨herr, -, -⟩ := s.transformed_of_err h
  obtain ⟨m, hm, hbefore, hout, hafter⟩ := s.transformed_exists_failing (raw := raw) (by simp [herr])
  have hok : transform (raw.take (8 * m)) = .ok (s.transformed raw).out := by
    have hverdict := s.verdict_transformed (raw.take (8 * m))
    rw [State.verdict_close_of_none hbefore, Option.some_inj] at hverdict
    rw [← hverdict, hout]
  refine ⟨m, hm, ?_, hok, hafter⟩
  have hlen : (s.transformed raw).out.length = m := by
    rw [transformWords_ok_length hok, List.length_nil, windows_length, List.length_take]
    omega
  rw [← (s.transformed_carried_of_err h).2, ← (s.transformed_inv raw).out_count, hlen, BitVec.toNat_ofNat]

/-- The `END 0` of a raw script closes the message and drops no group. -/
theorem State.execAll_rawScript (s : State) (raw : List Byte) :
    s.execAll (rawScript raw) = (s.transformed raw).dropHold.close := by
  have hopen := (s.transformed_inv raw).still_open
  rw [rawScript, State.execAll_append, State.execAll_cons, State.execAll_cons, State.execAll_nil, State.effect_init,
    ← State.transformed, State.effect_endMsg_of_open hopen, State.tailEffect_zero]

theorem runSteps_rawScript (s : State) (raw : List Byte) :
    runSteps (rawScript raw).length (s.offer (rawScript raw)) = .next ((s.transformed raw).dropHold.close.offer []) := by
  rw [runSteps_offer, State.execAll_rawScript]

end Sys2Proof.Machine

/-! `Decode` along the groups of a text (spec/40_armor_decoder.md R86): the loop on more groups, the errors it answers
with their operands, and the Windows of the bytes so far. -/

namespace Sys2Proof.Machine

/-- R46: the groups of the first `5 g` symbols are the first `g` groups. -/
theorem groups_take (text : List Byte) (g : Nat) : groups (text.take (5 * g)) = (groups text).take g := by
  fun_induction groups text generalizing g with
  | case1 s0 s1 s2 s3 s4 rest ih =>
    cases g with
    | zero => simp [groups]
    | succ g => simp only [Nat.mul_succ, List.take_succ_cons, groups, ih g]
  | case2 text hshort =>
    have hnone : groups text = [] := groups.eq_2 text hshort
    have hlen : text.length / 5 = 0 := by rw [← groups_length, hnone, List.length_nil]
    rw [List.take_nil]
    exact List.eq_nil_of_length_eq_zero (by rw [groups_length, List.length_take]; omega)

/-- R86: a text of whole groups is decoded by the loop. -/
theorem decodeText_of_whole {text : List Byte} (h : text.length % 5 = 0) :
    decodeText text = decodeGroups 0 [] (groups text) :=
  if_neg (not_not_intro h)

theorem decodeText_of_leftover {text : List Byte} (h : text.length % 5 ≠ 0) :
    decodeText text = .err .invalidLength text.length 0#8 :=
  if_pos h

theorem decodeText_take {text : List Byte} {g : Nat} (h : g ≤ text.length / 5) :
    decodeText (text.take (5 * g)) = decodeGroups 0 [] ((groups text).take g) := by
  rw [decodeText_of_whole (by rw [List.length_take]; omega), groups_take]

theorem decodeGroups_cons_of_ok {g : TextGroup} {b0 b1 b2 b3 : Byte} (h : g.decode = .ok b0 b1 b2 b3) (p : Nat)
    (raw : List Byte) (gs : List TextGroup) :
    decodeGroups p raw (g :: gs) = decodeGroups (p + 5) (raw ++ [b0, b1, b2, b3]) gs := by
  simp [decodeGroups, h]

theorem decodeGroups_cons_of_badByte {g : TextGroup} {j : Fin 5} {b : Byte} (h : g.decode = .badByte j b) (p : Nat)
    (raw : List Byte) (gs : List TextGroup) : decodeGroups p raw (g :: gs) = .err .invalidByte (p + j.val) b := by
  simp [decodeGroups, h]

theorem decodeGroups_cons_of_badChunk {g : TextGroup} (h : g.decode = .badChunk) (p : Nat) (raw : List Byte)
    (gs : List TextGroup) : decodeGroups p raw (g :: gs) = .err .invalidChunk p 0#8 := by
  simp [decodeGroups, h]

/-- R86: the first error stands, whatever groups follow. -/
theorem decodeGroups_append_of_err {p : Nat} {raw : List Byte} {gs : List TextGroup} {k : ErrKind} {q : Nat} {b : Byte}
    (h : decodeGroups p raw gs = .err k q b) (more : List TextGroup) :
    decodeGroups p raw (gs ++ more) = .err k q b := by
  fun_induction decodeGroups p raw gs with
  | case1 => cases h
  | case2 p raw g gs j b' hg => rw [← h, List.cons_append, decodeGroups_cons_of_badByte hg]
  | case3 p raw g gs hg => rw [← h, List.cons_append, decodeGroups_cons_of_badChunk hg]
  | case4 p raw g gs b0 b1 b2 b3 hg ih =>
    rw [List.cons_append, decodeGroups_cons_of_ok hg]
    exact ih h

/-- R86: the loop goes on from the position and the bytes it has reached. -/
theorem decodeGroups_append_of_ok {p : Nat} {raw out : List Byte} {gs : List TextGroup}
    (h : decodeGroups p raw gs = .ok out) (more : List TextGroup) :
    decodeGroups p raw (gs ++ more) = decodeGroups (p + 5 * gs.length) out more := by
  fun_induction decodeGroups p raw gs with
  | case1 => cases h; simp
  | case2 => cases h
  | case3 => cases h
  | case4 p raw g gs b0 b1 b2 b3 hg ih =>
    rw [List.cons_append, decodeGroups_cons_of_ok hg]
    have hpos : p + Config.groupSyms + 5 * gs.length = p + 5 * (g :: gs).length := by
      rw [Config.groupSyms_eq, List.length_cons]
      omega
    rw [← hpos]
    exact ih h

/-- R86: the loop fails with a decode error. -/
theorem decodeGroups_err_kind {p : Nat} {raw : List Byte} {gs : List TextGroup} {k : ErrKind} {q : Nat} {b : Byte}
    (h : decodeGroups p raw gs = .err k q b) : k = .invalidByte ∨ k = .invalidChunk := by
  fun_induction decodeGroups p raw gs with
  | case1 => cases h
  | case2 => cases h; exact .inl rfl
  | case3 => cases h; exact .inr rfl
  | case4 p raw g gs b0 b1 b2 b3 hg ih => exact ih h

/-- R81: an answer `BadByte` names an invalid symbol of the group. -/
theorem decodeGroup_badByte {s0 s1 s2 s3 s4 : Byte} {j : Fin 5} {b : Byte}
    (h : decodeGroup s0 s1 s2 s3 s4 = .badByte j b) :
    [s0, s1, s2, s3, s4][j.val]? = some b ∧ validSymbol b = false := by
  match h0 : digit? s0, h1 : digit? s1, h2 : digit? s2, h3 : digit? s3, h4 : digit? s4 with
  | none, _, _, _, _ =>
    rw [decodeGroup_invalid_zero h0] at h
    cases h
    exact ⟨rfl, validSymbol_eq_false.mpr h0⟩
  | some _, none, _, _, _ =>
    rw [decodeGroup_invalid_one h0 h1] at h
    cases h
    exact ⟨rfl, validSymbol_eq_false.mpr h1⟩
  | some _, some _, none, _, _ =>
    rw [decodeGroup_invalid_two h0 h1 h2] at h
    cases h
    exact ⟨rfl, validSymbol_eq_false.mpr h2⟩
  | some _, some _, some _, none, _ =>
    rw [decodeGroup_invalid_three h0 h1 h2 h3] at h
    cases h
    exact ⟨rfl, validSymbol_eq_false.mpr h3⟩
  | some _, some _, some _, some _, none =>
    rw [decodeGroup_invalid_four h0 h1 h2 h3 h4] at h
    cases h
    exact ⟨rfl, validSymbol_eq_false.mpr h4⟩
  | some _, some _, some _, some _, some _ =>
    rw [decodeGroup_valid h0 h1 h2 h3 h4, groupOfValue] at h
    split at h <;> cases h

/-- R86: an error of the loop on a text that starts at position `p` is an invalid symbol, or a group that overflows. -/
theorem decodeGroups_err {p : Nat} {raw text : List Byte} {k : ErrKind} {q : Nat} {b : Byte}
    (h : decodeGroups p raw (groups text) = .err k q b) :
    (k = .invalidByte ∧ ∃ j, q = p + j ∧ text[j]? = some b ∧ validSymbol b = false) ∨
      (k = .invalidChunk ∧ b = 0#8 ∧ ∃ g, q = p + 5 * g ∧ 5 * g < text.length) := by
  fun_induction groups text generalizing p raw with
  | case1 s0 s1 s2 s3 s4 rest ih =>
    match hg : (TextGroup.mk s0 s1 s2 s3 s4).decode with
    | .badByte j b' =>
      rw [decodeGroups_cons_of_badByte hg] at h
      cases h
      obtain ⟨hsymbol, hinvalid⟩ := decodeGroup_badByte hg
      have hin : (s0 :: s1 :: s2 :: s3 :: s4 :: rest)[j.val]? = some b := by
        rw [← hsymbol]
        exact List.getElem?_append_left (l₁ := [s0, s1, s2, s3, s4]) (l₂ := rest) j.isLt
      exact .inl ⟨rfl, j.val, rfl, hin, hinvalid⟩
    | .badChunk =>
      rw [decodeGroups_cons_of_badChunk hg] at h
      cases h
      exact .inr ⟨rfl, rfl, 0, rfl, by simp⟩
    | .ok b0 b1 b2 b3 =>
      rw [decodeGroups_cons_of_ok hg] at h
      obtain ⟨hk, j, hq, hsymbol, hinvalid⟩ | ⟨hk, hb, g, hq, hlt⟩ := ih h
      · exact .inl ⟨hk, j + 5, by omega, hsymbol, hinvalid⟩
      · exact .inr ⟨hk, hb, g + 1, by omega, by simp only [List.length_cons]; omega⟩
  | case2 => cases h

/-- R44: bytes that are whole Windows leave the Windows of what follows where they are. -/
theorem windows_append {whole : List Byte} (h : whole.length % 8 = 0) (more : List Byte) :
    windows (whole ++ more) = windows whole ++ windows more := by
  fun_induction windows whole with
  | case1 b0 b1 b2 b3 b4 b5 b6 b7 rest ih =>
    have hrest : rest.length % 8 = 0 := by simp only [List.length_cons] at h; omega
    simp only [List.cons_append, windows, ih hrest]
  | case2 whole hshort =>
    have hlen : whole.length / 8 = 0 := by rw [← windows_length, windows.eq_2 whole hshort, List.length_nil]
    obtain rfl : whole = [] := List.eq_nil_of_length_eq_zero (by omega)
    rfl

/-- R44: further bytes add Windows after those of the bytes before, the trailing ones included. -/
theorem windows_append_exists (raw more : List Byte) : ∃ ws, windows (raw ++ more) = windows raw ++ ws := by
  have hwhole : (raw.take (8 * (raw.length / 8))).length % 8 = 0 := by rw [List.length_take]; omega
  refine ⟨windows (raw.drop (8 * (raw.length / 8)) ++ more), ?_⟩
  rw [← windows_take_whole raw, ← windows_append hwhole, ← List.append_assoc, List.take_append_drop]

/-- R85: the bytes of one group after whole Windows make no Window yet. -/
theorem windows_append_group {whole : List Byte} (h : whole.length % 8 = 0) (b0 b1 b2 b3 : Byte) :
    windows (whole ++ [b0, b1, b2, b3]) = windows whole := by
  rw [windows_append h, windows_of_length_lt (raw := [b0, b1, b2, b3]) (by simp), List.append_nil]

/-- R71, R85: the bytes of two groups after whole Windows make the Window of the two, packed and joined. -/
theorem windows_append_pair {whole : List Byte} (h : whole.length % 8 = 0) (a0 a1 a2 a3 b0 b1 b2 b3 : Byte) :
    windows (whole ++ [a0, a1, a2, a3] ++ [b0, b1, b2, b3]) =
      windows (whole ++ [a0, a1, a2, a3]) ++ [joinGroups (packGroup a0 a1 a2 a3) (packGroup b0 b1 b2 b3)] := by
  rw [windows_append_group h, List.append_assoc, windows_append h, joinGroups_packGroup]
  rfl

end Sys2Proof.Machine

/-! `Pipeline` (spec/43_pipeline_reference.md R135): the decoder, then the transform. -/

namespace Sys2Proof.Machine

theorem pipeline_of_decode_err {text : List Byte} {k : ErrKind} {p : Nat} {b : Byte}
    (h : decodeText text = .err k p b) : pipeline text = .err k p b := by
  rw [pipeline, h]

theorem pipeline_of_decode_ok {text raw : List Byte} (h : decodeText text = .ok raw) :
    pipeline text = transform raw := by
  rw [pipeline, h]

/-- Settles O41: the errors of `Decode` by its two tests, the one error of `Transform`, and the two length laws. -/
theorem pipelineResultShape : Obligations.PipelineResultShape := by
  intro text
  refine ⟨fun _ _ _ => pipeline_of_decode_err, fun _ => pipeline_of_decode_ok, ?_⟩
  by_cases hwhole : text.length % 5 = 0
  · match hdec : decodeText text with
    | .err k p b =>
      rw [pipeline_of_decode_err hdec]
      rw [decodeText_of_whole hwhole] at hdec
      obtain ⟨rfl, j, hp, hsymbol, hinvalid⟩ | ⟨rfl, rfl, g, hp, hlt⟩ := decodeGroups_err hdec
      · obtain rfl : p = j := by omega
        exact .inr (.inr (.inl ⟨p, b, rfl, hsymbol, hinvalid⟩))
      · obtain rfl : p = 5 * g := by omega
        exact .inr (.inr (.inr (.inl ⟨g, rfl, hlt⟩)))
    | .ok raw =>
      rw [pipeline_of_decode_ok hdec]
      match htr : transform raw with
      | .err k i b =>
        obtain ⟨rfl, hi, rfl⟩ := transform_err htr
        exact .inr (.inr (.inr (.inr ⟨i, rfl, hi⟩)))
      | .ok out =>
        have hraw : raw.length = text.length / 5 * 4 := decodeLengthLaw.2 text raw hdec
        have hout : out.length = raw.length / 8 := (transformTruncationLaw raw).1 out htr
        exact .inl ⟨out, rfl, by omega⟩
  · exact .inr (.inl (pipeline_of_decode_err (decodeText_of_leftover hwhole)))

end Sys2Proof.Machine

/-! A message of `GRP` commands (spec/43_pipeline_reference.md R137, R138): after any number of groups the state is that
of the `WIN`s of the bytes decoded so far, but for what the Window assembler and the symbol counter hold, until a group
fails to decode. -/

namespace Sys2Proof.Machine

/-- `s` with the fields that only `GRP` and `END` use: the Window assembler (R23) and the symbol counter (R24). -/
def State.withAssembler (s : State) (hold : Word32) (holdV : Bool) (pos : Word64) : State :=
  { s with hold := hold, holdV := holdV, pos := pos }

theorem State.dropHold_withAssembler (s : State) (hold : Word32) (holdV : Bool) (pos : Word64) :
    (s.withAssembler hold holdV pos).dropHold = s.withAssembler 0#32 false pos := rfl

theorem State.countGroup_withAssembler (s : State) (hold : Word32) (holdV : Bool) (pos : Word64) :
    (s.withAssembler hold holdV pos).countGroup = s.withAssembler hold holdV (pos + 5#64) := rfl

/-- R104: the transform step neither reads nor writes them. -/
theorem State.xformStep_withAssembler (s : State) (hold : Word32) (holdV : Bool) (pos : Word64) (w : Word64) :
    (s.withAssembler hold holdV pos).xformStep w = (s.xformStep w).withAssembler hold holdV pos := by
  obtain ⟨hstep, h⟩ | ⟨b, q, hstep, h⟩ := s.xformStep_cases w
  · rw [h, State.xformStep_of_divZero (s := s.withAssembler hold holdV pos) hstep]
    rfl
  · rw [h, State.xformStep_of_ok (s := s.withAssembler hold holdV pos) hstep]
    rfl

/-- R23: the Window assembler is empty after whole Windows, and after an odd group it holds that group. -/
def State.HoldsRest (t : State) (raw : List Byte) : Prop :=
  (t.holdV = false ∧ raw.length % 8 = 0) ∨
  ∃ whole b0 b1 b2 b3, t.holdV = true ∧ t.hold = packGroup b0 b1 b2 b3 ∧ raw = whole ++ [b0, b1, b2, b3] ∧
    whole.length % 8 = 0

/-- The state `t` is that of the `WIN`s of `raw`, beside the assembler, which holds the rest of `raw` while no error is
latched. -/
def State.Follows (s : State) (raw : List Byte) (t : State) : Prop :=
  (∃ hold holdV pos, t = (s.transformed raw).withAssembler hold holdV pos) ∧ (t.err = .none → t.HoldsRest raw)

theorem State.transformed_append {raw more : List Byte} {ws : List Word64} (s : State)
    (h : windows (raw ++ more) = windows raw ++ ws) :
    s.transformed (raw ++ more) = (s.transformed raw).execAll (ws.map .win) := by
  rw [State.transformed, h, List.map_append, State.execAll_append, State.transformed]

/-- R105: once the transform has failed, further bytes change nothing. -/
theorem State.transformed_append_of_latched {s : State} {raw : List Byte} (h : (s.transformed raw).err ≠ .none)
    (more : List Byte) : s.transformed (raw ++ more) = s.transformed raw := by
  obtain ⟨ws, hws⟩ := windows_append_exists raw more
  rw [State.transformed_append s hws, State.execAll_wins_of_latched h]

theorem State.Follows.err_eq {s t : State} {raw : List Byte} (h : s.Follows raw t) : t.err = (s.transformed raw).err := by
  obtain ⟨⟨hold, holdV, pos, rfl⟩, -⟩ := h
  rfl

/-- R85: the transform latches no decode error. -/
theorem State.Follows.not_decodeError {s t : State} {raw : List Byte} (h : s.Follows raw t) :
    ¬(t.err = .invalidByte ∨ t.err = .invalidChunk) := by
  rw [h.err_eq]
  match htr : transform raw with
  | .ok out => simp [(s.transformed_of_ok htr).1]
  | .err k i b => simp [(s.transformed_of_err htr).1]

/-- R85: a group that decodes brings the state to that of its bytes too. -/
theorem State.Follows.group {s t : State} {raw : List Byte} (h : s.Follows raw t) (b0 b1 b2 b3 : Byte) :
    s.Follows (raw ++ [b0, b1, b2, b3]) (t.groupEffect (.ok b0 b1 b2 b3)).countGroup := by
  have herr_eq := h.err_eq
  obtain ⟨⟨hold, holdV, pos, rfl⟩, hrest⟩ := h
  by_cases herr : (s.transformed raw).err = .none
  · rw [State.groupEffect_ok_of_none (herr_eq.trans herr)]
    obtain ⟨hempty, hwhole⟩ | ⟨whole, a0, a1, a2, a3, hheld, hhold, rfl, hwhole⟩ := hrest (herr_eq.trans herr)
    · rw [State.assemble_first hempty]
      have hsame : s.transformed (raw ++ [b0, b1, b2, b3]) = s.transformed raw := by
        rw [State.transformed, windows_append_group hwhole, State.transformed]
      rw [State.Follows, hsame]
      exact ⟨⟨_, _, _, rfl⟩, fun _ => .inr ⟨raw, b0, b1, b2, b3, rfl, rfl, rfl, hwhole⟩⟩
    · rw [State.assemble_second hheld, hhold]
      have hstep := State.transformed_append s (windows_append_pair hwhole a0 a1 a2 a3 b0 b1 b2 b3)
      rw [List.map_singleton, State.execAll_cons, State.execAll_nil,
        State.effect_win_of_open (s.transformed_inv _).still_open herr] at hstep
      rw [State.dropHold_withAssembler, State.xformStep_withAssembler, ← hstep, State.countGroup_withAssembler]
      refine ⟨⟨_, _, _, rfl⟩, fun _ => .inl ⟨rfl, ?_⟩⟩
      simp only [List.length_append, List.length_cons, List.length_nil]
      omega
  · rw [State.groupEffect_ok_of_latched (by rwa [herr_eq]), State.Follows, State.transformed_append_of_latched herr]
    exact ⟨⟨_, _, _, rfl⟩, fun hnone => absurd (herr_eq.symm.trans hnone) herr⟩

/-- What the state `t` shows of a result of `Decode` on the groups so far: the bytes followed, or the error latched. -/
def State.Reflects (s t : State) : MessageResult → Prop
  | .ok raw => s.Follows raw t
  | .err k p b => t.err = k ∧ t.errPos = BitVec.ofNat 64 p ∧ t.errByte = b

/-- The invariant of R138, of the state `t` after `INIT` and the `GRP`s of `gs`. -/
structure GroupsServed (s : State) (gs : List TextGroup) (t : State) : Prop where
  still_open : t.done = false
  counted : t.pos = BitVec.ofNat 64 (5 * gs.length)
  decoded : s.Reflects t (decodeGroups 0 [] gs)

theorem groupsServed_restart (s : State) : GroupsServed s [] s.restart where
  still_open := rfl
  counted := rfl
  decoded := ⟨⟨_, _, _, rfl⟩, fun _ => .inl ⟨rfl, rfl⟩⟩

/-- R85, R86: one more group does to the state what it does to the result of `Decode`. -/
theorem GroupsServed.decoded_group {s t : State} {gs : List TextGroup} (h : GroupsServed s gs t) (g : TextGroup) :
    s.Reflects (t.groupEffect g.decode).countGroup (decodeGroups 0 [] (gs ++ [g])) := by
  have hdecoded := h.decoded
  match hbefore : decodeGroups 0 [] gs with
  | .err k p b =>
    rw [hbefore] at hdecoded
    have hkind : t.err = .invalidByte ∨ t.err = .invalidChunk := by
      rw [hdecoded.1]
      exact decodeGroups_err_kind hbefore
    rw [decodeGroups_append_of_err hbefore, State.groupEffect_of_decodeError hkind]
    exact hdecoded
  | .ok raw =>
    rw [hbefore] at hdecoded
    have hfollows : s.Follows raw t := hdecoded
    rw [decodeGroups_append_of_ok hbefore, Nat.zero_add]
    match hg : g.decode with
    | .badByte j b =>
      rw [decodeGroups_cons_of_badByte hg, State.groupEffect_badByte hfollows.not_decodeError, h.counted,
        ← BitVec.ofNat_add]
      exact ⟨rfl, rfl, rfl⟩
    | .badChunk =>
      rw [decodeGroups_cons_of_badChunk hg, State.groupEffect_badChunk hfollows.not_decodeError, h.counted]
      exact ⟨rfl, rfl, rfl⟩
    | .ok b0 b1 b2 b3 =>
      rw [decodeGroups_cons_of_ok hg]
      exact hfollows.group b0 b1 b2 b3

/-- R138: one more `GRP` keeps the invariant. -/
theorem GroupsServed.group {s t : State} {gs : List TextGroup} (h : GroupsServed s gs t) (g : TextGroup) :
    GroupsServed s (gs ++ [g]) (t.effect g.command) := by
  rw [State.effect_group_of_open h.still_open]
  refine ⟨by simpa using h.still_open, ?_, h.decoded_group g⟩
  rw [State.countGroup_pos, State.groupEffect_pos, h.counted, List.length_append, Nat.mul_add, BitVec.ofNat_add]
  rfl

/-- The state after `INIT` and the `GRP`s of some groups (R137). -/
def State.served (s : State) (gs : List TextGroup) : State :=
  s.restart.execAll (gs.map TextGroup.command)

theorem groupsServed_served (s : State) (gs : List TextGroup) : GroupsServed s gs (s.served gs) := by
  induction gs using List.reverseRecOn with
  | nil => exact groupsServed_restart s
  | append_singleton gs g ih =>
    rw [State.served, List.map_append, State.execAll_append]
    exact ih.group g

/-- R138: while the groups decode the state follows their bytes. -/
theorem State.served_follows (s : State) {gs : List TextGroup} {raw : List Byte} (h : decodeGroups 0 [] gs = .ok raw) :
    s.Follows raw (s.served gs) := by
  have hdecoded := (groupsServed_served s gs).decoded
  rwa [h] at hdecoded

/-- R138: once a group has failed its error is latched, at the position `Decode` gives, which no text of fewer than
2^64 symbols exceeds. -/
theorem State.served_err (s : State) {text : List Byte} {k : ErrKind} {p : Nat} {b : Byte}
    (hlen : text.length < 2 ^ 64) (h : decodeGroups 0 [] (groups text) = .err k p b) :
    (s.served (groups text)).err = k ∧ (s.served (groups text)).errPos.toNat = p ∧
      (s.served (groups text)).errByte = b := by
  have hdecoded := (groupsServed_served s (groups text)).decoded
  rw [h] at hdecoded
  obtain ⟨herr, hpos, hbyte⟩ := hdecoded
  have hp : p < text.length := by
    obtain ⟨-, j, rfl, hsymbol, -⟩ | ⟨-, -, g, rfl, hlt⟩ := decodeGroups_err h
    · rw [Nat.zero_add]
      exact (List.getElem?_eq_some_iff.mp hsymbol).1
    · rwa [Nat.zero_add]
  exact ⟨herr, by rw [hpos, BitVec.toNat_ofNat, Nat.mod_eq_of_lt (by omega)], hbyte⟩

/-- R138: the count of symbols, which does not wrap. -/
theorem State.served_pos_toNat (s : State) {gs : List TextGroup} (h : 5 * gs.length < 2 ^ 64) :
    (s.served gs).pos.toNat = 5 * gs.length := by
  rw [(groupsServed_served s gs).counted, BitVec.toNat_ofNat, Nat.mod_eq_of_lt h]

/-- R23, R138: a group is held exactly after an odd number of groups, and it is the last one. -/
theorem State.HoldsRest.parity {t : State} {raw : List Byte} {g : Nat} (h : t.HoldsRest raw) (hlen : raw.length = 4 * g) :
    t.holdV = decide (g % 2 = 1) ∧
      (g % 2 = 1 → ∃ b0 b1 b2 b3, raw.drop (4 * (g - 1)) = [b0, b1, b2, b3] ∧ t.hold = packGroup b0 b1 b2 b3) := by
  obtain ⟨hempty, hwhole⟩ | ⟨whole, b0, b1, b2, b3, hheld, hhold, rfl, hwhole⟩ := h
  · have heven : ¬ g % 2 = 1 := by omega
    exact ⟨by simp [hempty, heven], fun hodd => absurd hodd heven⟩
  · simp only [List.length_append, List.length_cons, List.length_nil] at hlen
    have hodd : g % 2 = 1 := by omega
    refine ⟨by simp [hheld, hodd], fun _ => ⟨b0, b1, b2, b3, ?_, hhold⟩⟩
    rw [show 4 * (g - 1) = whole.length by omega, List.drop_left]

/-- R138: the state that follows the bytes of `g` groups, which transform. -/
theorem State.Follows.of_transform_ok {s t : State} {raw out : List Byte} {g : Nat} (h : s.Follows raw t)
    (hlen : raw.length = 4 * g) (hok : transform raw = .ok out) :
    t.err = .none ∧ t.out = out ∧ t.idx = BitVec.ofNat 32 out.length ∧
      t.prev = ((out.getLast?.map widenByte).getD Config.prevInit) ∧ t.holdV = decide (g % 2 = 1) ∧
      (g % 2 = 1 → ∃ b0 b1 b2 b3, raw.drop (4 * (g - 1)) = [b0, b1, b2, b3] ∧ t.hold = packGroup b0 b1 b2 b3) := by
  obtain ⟨⟨hold, holdV, pos, rfl⟩, hrest⟩ := h
  obtain ⟨hnone, hout⟩ := s.transformed_of_ok hok
  obtain ⟨hidx, hprev⟩ := s.transformed_carried_of_ok hok
  exact ⟨hnone, hout, hidx, hprev, (hrest hnone).parity hlen⟩

/-- R138, C12: the state that follows bytes which make a division by zero, at their Window `m`. -/
theorem State.Follows.of_transform_err {s t : State} {raw : List Byte} (h : s.Follows raw t) {k : ErrKind} {i : Nat}
    {b : Byte} (herr : transform raw = .err k i b) :
    t.err = .divisionByZero ∧ t.errPos.toNat = i ∧ t.errByte = 0#8 ∧ t.prev = 0#32 ∧ t.idx.toNat = i ∧
      ∃ m < raw.length / 8, i = m % 2 ^ 32 ∧ transform (raw.take (8 * m)) = .ok t.out ∧
        transform (raw.take (8 * (m + 1))) = .err .divisionByZero i 0#8 := by
  obtain ⟨⟨hold, holdV, pos, rfl⟩, -⟩ := h
  obtain ⟨hkind, hpos, hbyte⟩ := s.transformed_of_err herr
  obtain ⟨hprev, hidx⟩ := s.transformed_carried_of_err herr
  obtain ⟨m, hm, hi, hbefore, hafter⟩ := s.transformed_failing_window herr
  obtain ⟨rfl, -, rfl⟩ := transform_err herr
  have hfails : transform (raw.take (8 * (m + 1))) = .err .divisionByZero i 0#8 := by
    rw [← herr, ← Option.some_inj, ← s.verdict_transformed, hafter, s.verdict_transformed]
  exact ⟨hkind, hpos, hbyte, hprev, hidx, m, hm, hi, hbefore, hfails⟩

/-- R138: the invariant as the rule writes it. -/
theorem State.served_textPrefixInv (s : State) {text : List Byte} (hlen : text.length < 2 ^ 64) {g : Nat}
    (hg : g ≤ text.length / 5) : TextPrefixInv text g (s.served ((groups text).take g)) := by
  have hcount : ((groups text).take g).length = g := by rw [List.length_take, groups_length]; omega
  refine ⟨?_, (groupsServed_served s _).still_open, ?_, ?_⟩
  · rw [s.served_pos_toNat (by omega), hcount]
  · intro k p b hdec
    rw [decodeText_take hg, ← groups_take] at hdec
    rw [← groups_take]
    exact s.served_err (by rw [List.length_take]; omega) hdec
  · intro raw hdec
    rw [decodeText_take hg] at hdec
    have hfollows := s.served_follows hdec
    have hraw : raw.length = 4 * g := by rw [decodeGroups_ok_length hdec, hcount, List.length_nil, Nat.zero_add]
    exact ⟨fun _ => hfollows.of_transform_ok hraw, fun _ _ _ => hfollows.of_transform_err⟩

end Sys2Proof.Machine

/-! The two scripts of R137 whole: what `END` makes of the message, and the two agreements R138 and R139. -/

namespace Sys2Proof.Machine

theorem State.execAll_textScript (s : State) (text : List Byte) :
    s.execAll (textScript text) =
      ((s.served (groups text)).tailEffect (BitVec.ofNat 3 (text.length % 5))).dropHold.close := by
  have hopen := (groupsServed_served s (groups text)).still_open
  rw [textScript, State.execAll_append, State.execAll_cons, State.execAll_cons, State.execAll_nil, State.effect_init,
    ← State.served, State.effect_endMsg_of_open hopen]

/-- R121: with no symbol left over the error that stands is the verdict. -/
theorem State.execAll_textScript_of_whole (s : State) {text : List Byte} (h : text.length % 5 = 0) :
    s.execAll (textScript text) = (s.served (groups text)).dropHold.close := by
  rw [State.execAll_textScript, h, State.tailEffect_zero]

/-- R121: with symbols left over the verdict is `InvalidLength`, whatever was latched. -/
theorem State.verdict_textScript_of_leftover (s : State) {text : List Byte} (hlen : text.length < 2 ^ 64)
    (h : text.length % 5 ≠ 0) :
    (s.execAll (textScript text)).verdict = some (.err .invalidLength text.length 0#8) := by
  have htail : (BitVec.ofNat 3 (text.length % 5)).toNat = text.length % 5 := by rw [BitVec.toNat_ofNat]; omega
  have hpos : (s.served (groups text)).pos.toNat = 5 * (text.length / 5) := by
    rw [s.served_pos_toNat (by rw [groups_length]; omega), groups_length]
  have hcount : ((s.served (groups text)).pos + (BitVec.ofNat 3 (text.length % 5)).setWidth 64).toNat = text.length := by
    rw [pos_add_tail_eq_ofNat, hpos, htail, BitVec.toNat_ofNat]
    omega
  rw [State.execAll_textScript, State.tailEffect_wrongLength (by omega) (by omega)]
  refine (State.verdict_close_of_latched (by simp)).trans ?_
  rw [State.dropHold_errPos, State.raise_errPos, hcount]
  rfl

theorem State.Follows.verdict {s t : State} {raw : List Byte} (h : s.Follows raw t) :
    t.close.verdict = some (transform raw) := by
  obtain ⟨⟨hold, holdV, pos, rfl⟩, -⟩ := h
  exact s.verdict_transformed raw

/-- R138: the verdict of a text's script. -/
theorem State.verdict_textScript (s : State) {text : List Byte} (hlen : text.length < 2 ^ 64) :
    (s.execAll (textScript text)).verdict = some (pipeline text) := by
  by_cases hwhole : text.length % 5 = 0
  · rw [s.execAll_textScript_of_whole hwhole]
    match hdec : decodeText text with
    | .ok raw =>
      rw [pipeline_of_decode_ok hdec]
      exact (s.served_follows (decodeText_ok hdec).2).verdict
    | .err k p b =>
      rw [pipeline_of_decode_err hdec]
      rw [decodeText_of_whole hwhole] at hdec
      obtain ⟨hkind, hpos, hbyte⟩ := s.served_err hlen hdec
      have hlatched : (s.served (groups text)).err ≠ .none := by
        obtain hk | hk := decodeGroups_err_kind hdec <;> simp [hkind, hk]
      rw [← hkind, ← hpos, ← hbyte]
      exact State.verdict_close_of_latched hlatched
  · rw [s.verdict_textScript_of_leftover hlen hwhole, pipeline_of_decode_err (decodeText_of_leftover hwhole)]

theorem State.execAll_textScript_done (s : State) (text : List Byte) : (s.execAll (textScript text)).done = true := by
  rw [State.execAll_textScript, State.close_done]

/-- One step for `INIT` and one for each of the first `g` groups leave the rest of the script offered. -/
theorem runSteps_textScript_take (s : State) {text : List Byte} {g : Nat} (hg : g ≤ text.length / 5) :
    ∃ rest, runSteps (1 + g) (s.offer (textScript text)) = .next ((s.served ((groups text).take g)).offer rest) := by
  have hscript : textScript text = (.init :: ((groups text).take g).map TextGroup.command) ++
      (((groups text).drop g).map TextGroup.command ++ [.endMsg (BitVec.ofNat 3 (text.length % 5))]) := by
    rw [List.cons_append, ← List.append_assoc, ← List.map_append, List.take_append_drop]
    rfl
  have hcount : (Instr.init :: ((groups text).take g).map TextGroup.command).length = 1 + g := by
    rw [List.length_cons, List.length_map, List.length_take, groups_length]
    omega
  have hrun := runSteps_offer_append s (.init :: ((groups text).take g).map TextGroup.command)
    (((groups text).drop g).map TextGroup.command ++ [.endMsg (BitVec.ofNat 3 (text.length % 5))])
  rw [← hscript, hcount] at hrun
  exact ⟨_, hrun⟩

/-- Settles O42: the invariant after every group, and what `END` makes of it. -/
theorem textScriptComputesPipeline : Obligations.TextScriptComputesPipeline := by
  intro text s hlen
  refine ⟨⟨_, runSteps_offer s _, rfl, s.execAll_textScript_done text, s.verdict_textScript hlen⟩, fun g hg => ?_⟩
  obtain ⟨rest, hrun⟩ := runSteps_textScript_take s hg
  exact ⟨_, hrun, s.served_textPrefixInv hlen hg⟩

theorem State.execAll_offer (s : State) (script commands : List Instr) :
    (s.offer script).execAll commands = (s.execAll commands).offer script := by
  induction commands generalizing s with
  | nil => rfl
  | cons i commands ih => rw [State.execAll_cons, State.effect_offer, ih, State.execAll_cons]

/-- The transform starts from the same block whatever the state before `INIT` was (R3, R120). -/
theorem State.transformed_toBlock (s s' : State) (raw : List Byte) :
    (s.transformed raw).toBlock = (s'.transformed raw).toBlock := by
  have hsame : (s.transformed raw).offer [] = (s'.transformed raw).offer [] := by
    rw [State.transformed, State.transformed, ← State.execAll_offer, ← State.execAll_offer]
    rfl
  exact (congrArg State.toBlock hsame :)

/-- R138, R139: the carried state that a text's script leaves is that of the bytes it decodes to. -/
theorem State.execAll_textScript_carried (s s' : State) {text raw : List Byte} (h : decodeText text = .ok raw) :
    (s.execAll (textScript text)).prev = (s'.transformed raw).prev ∧
      (s.execAll (textScript text)).idx = (s'.transformed raw).idx ∧
      (s.execAll (textScript text)).lastq = (s'.transformed raw).lastq := by
  obtain ⟨hwhole, hgroups⟩ := decodeText_ok h
  obtain ⟨⟨hold, holdV, pos, heq⟩, -⟩ := s.served_follows hgroups
  rw [s.execAll_textScript_of_whole hwhole, heq]
  have hblock := s.transformed_toBlock s' raw
  exact ⟨(congrArg Block.prev hblock :), (congrArg Block.idx hblock :), (congrArg Block.lastq hblock :)⟩

/-- Settles O43: the `WIN`s of the bytes run the transform, `END 0` closes the message, and a text's script leaves the
carried state of its bytes. -/
theorem rawScriptComputesTransform : Obligations.RawScriptComputesTransform := by
  refine ⟨fun raw s => ⟨_, runSteps_rawScript s raw, rfl, rfl, s.verdict_transformed raw, fun out hok => ?ok,
    fun k i b herr => ?err⟩, fun text raw s s' hlen hdec => ⟨_, _, runSteps_offer s _, runSteps_rawScript s' raw,
    ?verdict, s.execAll_textScript_carried s' hdec⟩⟩
  case ok =>
    obtain ⟨hidx, hprev⟩ := s.transformed_carried_of_ok hok
    obtain ⟨-, hout⟩ := s.transformed_of_ok hok
    have hinv := s.transformed_inv raw
    exact ⟨hidx, hprev, fun hne => hinv.lastq_low (by rwa [hout]), hinv.no_symbols, rfl⟩
  case err =>
    obtain ⟨hprev, hidx⟩ := s.transformed_carried_of_err herr
    obtain ⟨m, hm, hi, hbefore, hafter⟩ := s.transformed_failing_window herr
    have hrun := runSteps_rawScript s (raw.take (8 * (m + 1)))
    rw [hafter] at hrun
    exact ⟨(transform_err herr).1, hprev, hidx, m, hm, hi, hbefore, hrun⟩
  case verdict =>
    refine (s.verdict_textScript hlen).trans ?_
    rw [pipeline_of_decode_ok hdec]
    exact (s'.verdict_transformed raw).symm

end Sys2Proof.Machine

/-! Reset (spec/70_reset_and_hazards.md R175, R176): the values it leaves, and the step that serves it. -/

namespace Sys2Proof.Machine

/-- Settles O11: the fields are the reset column of R20, and the registers show them. -/
theorem resetLeavesR175 : Obligations.ResetLeavesR175 := by
  refine ⟨⟨rfl, rfl, rfl, rfl, rfl, rfl, rfl, rfl, rfl, rfl, rfl⟩, reset_statusReg 4#3, fun i hi => ?_, rfl, rfl⟩
  rw [reset_statusReg, if_neg hi]

/-- R176: reset is served in every state, and the inputs behind it stay offered. -/
theorem step_of_rst {s : State} {rest : List Input} (h : s.input = .rst :: rest) :
    step s = .next { s with input := rest }.restart := by
  rw [step, State.takeInput_some.mpr ⟨rest, h, rfl⟩]

/-- R120, R175: what a restart leaves of the block does not depend on the state before it. -/
theorem State.restart_toBlock (s : State) : s.restart.toBlock = State.reset.toBlock := rfl

/-- Settles O12: the reset input and `INIT` both restart the block. -/
theorem resetInputRestartsTheBlock : Obligations.ResetInputRestartsTheBlock :=
  fun s _ hrst => ⟨_, step_of_rst hrst, State.restart_toBlock _, State.restart_out _, s.restart,
    initRestartsTheMessage s, s.restart_toBlock.trans (State.restart_toBlock _).symm, rfl⟩

end Sys2Proof.Machine

/-! The chained hazard (spec/70_reset_and_hazards.md R182): a byte 0 is the `prev` of the Window after it. -/

namespace Sys2Proof.Machine

/-- R137: the `WIN`s of a byte sequence are those of its first `m` Windows, then the others. -/
theorem State.transformed_take_drop (s : State) (raw : List Byte) (m : Nat) :
    s.transformed raw = (s.transformed (raw.take (8 * m))).execAll (((windows raw).drop m).map .win) := by
  rw [State.transformed, State.transformed, windows_take, ← State.execAll_append, ← List.map_append,
    List.take_append_drop]

/-- R106, R110: after some Windows that succeed, the loop goes on from the last byte they emitted and from their
number. -/
theorem transform_of_take_ok {raw out : List Byte} {m : Nat} (h : transform (raw.take (8 * m)) = .ok out) :
    transform raw = transformWords ((out.getLast?.map widenByte).getD Config.prevInit) (BitVec.ofNat 32 out.length) out
      ((windows raw).drop m) := by
  have hopen := (State.reset.transformed_inv (raw.take (8 * m))).still_open
  obtain ⟨herr, hout⟩ := State.reset.transformed_of_ok h
  obtain ⟨hidx, hprev⟩ := State.reset.transformed_carried_of_ok h
  have hverdict := State.verdict_execAll_wins hopen herr ((windows raw).drop m)
  rw [← State.transformed_take_drop, State.verdict_transformed, hprev, hidx, hout] at hverdict
  exact Option.some_inj.mp hverdict

/-- R101 (b), R182: the carried byte 0 makes the divisor of the next Window 0, whatever its Word and its index. -/
theorem tStep_of_prev_zero (word : Word64) (idx : Word32) : tStep word (widenByte 0#8) idx = .divZero :=
  tStep_divZero.mpr rfl

/-- Settles O39: when no Window follows, the first `k + 1` are all; else the next Window meets `prev = 0`. -/
theorem zeroByteIsFatalToTheNextWindow : Obligations.ZeroByteIsFatalToTheNextWindow := by
  intro raw out k hok hlen hlast
  refine ⟨fun hwhole => ?last, fun hmore => ?follows⟩
  case last => rwa [← hwhole, transform_take_whole] at hok
  case follows =>
    have hnext : k + 1 < (windows raw).length := by rwa [windows_length]
    have hprev : (out.getLast?.map widenByte).getD Config.prevInit = widenByte 0#8 := by rw [hlast]; rfl
    rw [transform_of_take_ok hok, hprev, hlen, List.drop_eq_getElem_cons hnext,
      transformWords_cons_of_divZero (tStep_of_prev_zero ..), BitVec.toNat_ofNat]

end Sys2Proof.Machine

/-! Restoring the ignored bits of a command word (spec/30_encoding.md R60, R69 (b)): every word is `op` before a payload
whose fields are written out, and the ignored ones among them are the high part of the payload. -/

namespace Sys2Proof.Laws

/-- R60: a word is built from its two fields. -/
theorem cmdWord_fields (w : CmdWord) : cmdWord (opField w) (payloadField w) = w :=
  BitVec.extractLsb'_append_extractLsb' (w := 2) (len := 64)

/-- R61: all four values of `op` are assigned. -/
theorem op_cases (op : BitVec 2) : op = 0#2 ∨ op = 1#2 ∨ op = 2#2 ∨ op = 3#2 := by
  revert op
  decide

theorem exists_eq_append {m n : Nat} (x : BitVec (m + n)) : ∃ (high : BitVec m) (low : BitVec n), x = high ++ low :=
  ⟨_, _, BitVec.extractLsb'_append_extractLsb'.symm⟩

/-- R63: the fields of a `GRP` payload, the ignored bits 63:40 first. -/
theorem exists_grp_payload (payload : Word64) : ∃ (ignored : BitVec 24) (s0 s1 s2 s3 s4 : Byte),
    payload = ignored ++ s4 ++ s3 ++ s2 ++ s1 ++ s0 := by
  obtain ⟨p1, s0, rfl⟩ := exists_eq_append (m := 56) (n := 8) payload
  obtain ⟨p2, s1, rfl⟩ := exists_eq_append (m := 48) (n := 8) p1
  obtain ⟨p3, s2, rfl⟩ := exists_eq_append (m := 40) (n := 8) p2
  obtain ⟨p4, s3, rfl⟩ := exists_eq_append (m := 32) (n := 8) p3
  obtain ⟨ignored, s4, rfl⟩ := exists_eq_append (m := 24) (n := 8) p4
  exact ⟨ignored, s0, s1, s2, s3, s4, rfl⟩

/-- No bit of `op` is ignored, so restoring works on the payload alone. -/
theorem cmdWord_restore (op : BitVec 2) (encoded payload mask : Word64) :
    cmdWord op encoded ||| (cmdWord op payload &&& cmdWord 0#2 mask) = cmdWord op (encoded ||| (payload &&& mask)) := by
  simp only [cmdWord]
  rw [BitVec.and_append, BitVec.or_append, BitVec.and_zero, BitVec.or_zero]

/-- R69 (b): where the ignored bits are the high part, they come back and the low part stands. -/
theorem append_restore {m n : Nat} (ignored : BitVec m) (low : BitVec n) :
    (0#m ++ low) ||| ((ignored ++ low) &&& (BitVec.allOnes m ++ 0#n)) = ignored ++ low := by
  rw [BitVec.and_append, BitVec.or_append]
  simp

/-- What `DecodeOfEncodeIsTheCommand` says of a word. -/
def RestoresWord (w : CmdWord) : Prop :=
  encode (decode w) ||| (w &&& ignoredBits (decode w)) = w

theorem restoresWord_init (payload : Word64) : RestoresWord (cmdWord 0#2 payload) := by
  have hmask : ignoredBits .init = cmdWord 0#2 (BitVec.allOnes 64) := rfl
  rw [RestoresWord, decode_cmdWord_init, hmask, encode, cmdWord_restore, BitVec.and_allOnes, BitVec.zero_or]

theorem restoresWord_grp (ignored : BitVec 24) (s0 s1 s2 s3 s4 : Byte) :
    RestoresWord (cmdWord 1#2 (ignored ++ s4 ++ s3 ++ s2 ++ s1 ++ s0)) := by
  have hmask : ignoredBits (.grp s0 s1 s2 s3 s4) = cmdWord 0#2 (BitVec.allOnes 24 ++ 0#40) := rfl
  have hpayload (x : BitVec 24) : x ++ s4 ++ s3 ++ s2 ++ s1 ++ s0 = x ++ (s4 ++ s3 ++ s2 ++ s1 ++ s0) := by
    simp only [BitVec.append_assoc, BitVec.cast_eq]
  rw [RestoresWord, decode_cmdWord_grp, hmask, encode, cmdWord_restore, hpayload, hpayload, append_restore]

theorem restoresWord_win (payload : Word64) : RestoresWord (cmdWord 2#2 payload) := by
  rw [RestoresWord, decode_cmdWord_win, ignoredBits, encode, BitVec.and_zero, BitVec.or_zero]

theorem restoresWord_endMsg (ignored : BitVec 61) (ntail : BitVec 3) :
    RestoresWord (cmdWord 3#2 (ignored ++ ntail)) := by
  have hmask : ignoredBits (.endMsg ntail) = cmdWord 0#2 (BitVec.allOnes 61 ++ 0#3) := rfl
  rw [RestoresWord, decode_cmdWord_endMsg, hmask, encode, cmdWord_restore, append_restore]

/-- Settles O1: a word is one of four forms by its `op`, and each form is rebuilt from its command and its ignored
bits. -/
theorem decodeOfEncodeIsTheCommand : Obligations.DecodeOfEncodeIsTheCommand := by
  refine ⟨decode_encode, fun w => ?_⟩
  suffices RestoresWord (cmdWord (opField w) (payloadField w)) by rwa [cmdWord_fields] at this
  obtain hop | hop | hop | hop := op_cases (opField w) <;> rw [hop]
  · exact restoresWord_init _
  · obtain ⟨ignored, s0, s1, s2, s3, s4, hpayload⟩ := exists_grp_payload (payloadField w)
    rw [hpayload]
    exact restoresWord_grp ignored s0 s1 s2 s3 s4
  · exact restoresWord_win _
  · obtain ⟨ignored, ntail, hpayload⟩ := exists_eq_append (m := 61) (n := 3) (payloadField w)
    rw [hpayload]
    exact restoresWord_endMsg ignored ntail

/-- Settles O3: six closed words. -/
theorem writtenWordsDecode : Obligations.WrittenWordsDecode := by
  unfold Obligations.WrittenWordsDecode
  decide

end Sys2Proof.Laws

/-! The invariants of R36 at reset and along every step. -/

namespace Sys2Proof.Machine

/-- Settles O26: the invariants are kept by every operation a step is made of, as proved above for O27. -/
theorem everyStepKeepsMessageInvariant : Obligations.EveryStepKeepsMessageInvariant :=
  fun _ _ => step_keeps_messageInv

/-- Settles O25: restarting the reset state leaves it as it is. -/
theorem resetMeetsMessageInvariant : Obligations.ResetMeetsMessageInvariant :=
  messageInv_restart State.reset

end Sys2Proof.Machine

/-! Groups of a text (spec/20_memory.md R46). -/

namespace Sys2Proof.Machine

/-- R46: past the first group, symbol `5 (g + 1) + j` of the text is symbol `5 g + j` of what follows that group. -/
theorem groups_getElem?_symbols {text : List Byte} {g : Nat} {grp : TextGroup} (h : (groups text)[g]? = some grp) :
    [grp.s0, grp.s1, grp.s2, grp.s3, grp.s4] = (text.drop (5 * g)).take 5 := by
  fun_induction groups text generalizing g with
  | case1 s0 s1 s2 s3 s4 rest ih =>
    cases g with
    | zero =>
      obtain rfl : TextGroup.mk s0 s1 s2 s3 s4 = grp := by simpa using h
      rfl
    | succ g => exact ih (by simpa using h)
  | case2 => simp at h

/-- Settles O9: the number of groups, and the symbols of each. -/
theorem groupsAreFiveSymbolSlices : Obligations.GroupsAreFiveSymbolSlices :=
  fun text => ⟨groups_length text, fun _ _ => groups_getElem?_symbols⟩

end Sys2Proof.Machine

/-! A `TEXT` line of plain characters (spec/30_encoding.md R74). -/

namespace Sys2Proof.Machine

/-- A printable ASCII character other than the quote and the backslash, the two that R74 escapes. -/
def IsPlain (c : Char) : Prop := 32 ≤ c.toNat ∧ c.toNat < 127 ∧ c ≠ '"' ∧ c ≠ '\\'

theorem quoted?_closing : quoted? ['"'] = some [] := rfl

/-- A plain character stands for its code. -/
theorem quoted?_cons_of_plain {c : Char} (h : IsPlain c) (rest : List Char) :
    quoted? (c :: rest) = (quoted? rest).map (BitVec.ofNat 8 c.toNat :: ·) := by
  obtain ⟨-, hascii, hquote, hbackslash⟩ := h
  rw [quoted?.eq_7 c rest (fun _ _ _ hc => absurd hc hbackslash) (fun _ hc => absurd hc hbackslash)
    (fun _ hc => absurd hc hbackslash) hbackslash hquote, if_pos (by omega)]

theorem quoted?_of_plain {symbols : List Char} (h : ∀ c ∈ symbols, IsPlain c) :
    quoted? (symbols ++ ['"']) = some (symbols.map fun c => BitVec.ofNat 8 c.toNat) := by
  induction symbols with
  | nil => exact quoted?_closing
  | cons c symbols ih =>
    obtain ⟨hc, hsymbols⟩ := List.forall_mem_cons.mp h
    rw [List.cons_append, quoted?_cons_of_plain hc, ih hsymbols]
    rfl

/-- R74: a line that begins with `TEXT`, a blank and a quote has no other form; what follows is the quoted string. -/
theorem readLine?_text (body : List Char) :
    readLine? (['T', 'E', 'X', 'T', ' ', '"'] ++ body) = (quoted? body).map ScriptLine.text := by
  simp [readLine?, stripWord]

/-- Settles O4: the line is a `TEXT` line, and its string is read character by character. -/
theorem textLineExpandsToTextScript : Obligations.TextLineExpandsToTextScript := by
  intro symbols hplain
  rw [List.append_assoc, readLine?_text, quoted?_of_plain hplain]
  rfl

end Sys2Proof.Machine

/-! One step by what is offered (spec/30_encoding.md R75, spec/60_exceptions.md R163), and runs of any length
(spec/20_memory.md R48, spec/70_reset_and_hazards.md R184). -/

namespace Sys2Proof.Machine

theorem step_of_cmd {s : State} {w : CmdWord} {rest : List Input} (h : s.input = .cmd w :: rest) :
    step s = exec (decode w) { s with input := rest } := by
  rw [step, State.takeInput_some.mpr ⟨rest, h, rfl⟩]

theorem step_of_nothing {s : State} (h : s.input = []) : step s = .next s := by
  rw [step, State.takeInput_none.mpr h]

/-- Settles O13: the offered word is what `takeInput` answers. -/
theorem stepRunsTheDecodedCommand : Obligations.StepRunsTheDecodedCommand :=
  fun _ _ _ => step_of_cmd

/-- Settles O14: `takeInput` answers nothing. -/
theorem stepWithNothingOfferedHolds : Obligations.StepWithNothingOfferedHolds :=
  fun _ => step_of_nothing

/-- R184: every step completes. -/
theorem step_completes (s : State) : ∃ t, step s = .next t := by
  match hin : s.input with
  | [] => exact ⟨s, step_of_nothing hin⟩
  | .rst :: rest => exact ⟨_, step_of_rst hin⟩
  | .cmd w :: rest =>
    rw [step_of_cmd hin]
    exact exec_completes (decode w) _

/-- R48: a step serves exactly the input offered first. -/
theorem step_input {s t : State} (h : step s = .next t) : t.input = s.input.tail := by
  obtain ⟨hin, rfl⟩ | ⟨rest, hin, rfl⟩ | ⟨w, rest, hin, hexec⟩ := step_cases h <;> rw [hin]
  · rfl
  · rfl
  · exact exec_input hexec

theorem runSteps_completes (n : Nat) (s : State) : ∃ t, runSteps n s = .next t ∧ t.input = s.input.drop n := by
  induction n generalizing s with
  | zero => exact ⟨s, runSteps_zero s, rfl⟩
  | succ n ih =>
    obtain ⟨u, hstep⟩ := step_completes s
    obtain ⟨t, hrun, hinput⟩ := ih u
    exact ⟨t, by rw [runSteps_succ hstep, hrun], by rw [hinput, step_input hstep, List.drop_tail]⟩

/-- Settles O15: by induction on the number of steps. -/
theorem everyRunCompletes : Obligations.EveryRunCompletes := runSteps_completes

/-- R48: a run of `m + n` steps goes on for `n` steps from where its first `m` lead. -/
theorem runSteps_add {m : Nat} {s u : State} (h : runSteps m s = .next u) (n : Nat) :
    runSteps (m + n) s = runSteps n u := by
  induction m generalizing s with
  | zero =>
    cases h
    rw [Nat.zero_add]
  | succ m ih =>
    obtain ⟨v, hstep, hrun⟩ := runSteps_succ_next h
    rw [Nat.succ_add, runSteps_succ hstep, ih hrun]

/-- R120: what `INIT` leaves to a host that offers a script does not depend on the state before. -/
theorem State.offer_restart (s s' : State) (script : List Instr) :
    s.restart.offer script = s'.restart.offer script := rfl

/-- Settles O34: the commands before `INIT` lead to some state, which the step of `INIT` forgets. -/
theorem whatPrecedesInitHasNoInfluence : Obligations.WhatPrecedesInitHasNoInfluence := by
  intro s s' before script n
  rw [runSteps_add (runSteps_offer_append s before (.init :: script)), runSteps_succ (step_offer_cons ..),
    runSteps_succ (step_offer_cons ..), State.effect_init, State.effect_init, State.offer_restart]

end Sys2Proof.Machine

/-! The arithmetic of `TStep` (spec/41_chained_transform.md R101). -/

namespace Sys2Proof.Machine

/-- R101 (b), (d): the two values of `prev` whose double is 0 modulo 2^32. -/
theorem divisorOf_eq_zero_iff {prev : Word32} : divisorOf prev = 0#32 ↔ prev = 0#32 ∨ prev = 0x80000000#32 := by
  have hlt := prev.isLt
  rw [divisorOf_eq_zero_iff_toNat, ← BitVec.toNat_inj, ← BitVec.toNat_inj, BitVec.toNat_ofNat, BitVec.toNat_ofNat]
  omega

/-- R101 (c): the divisor is even, so where it is not 0 it is at least 2. -/
theorem two_le_divisorOf {prev : Word32} (h : divisorOf prev ≠ 0#32) : 2 ≤ (divisorOf prev).toNat := by
  rw [Ne, divisorOf_eq_zero_iff_toNat] at h
  rw [divisorOf_toNat]
  omega

/-- Settles O19: the laws of truncating division by a divisor of at least 2. -/
theorem tStepArithmeticLaws : Obligations.TStepArithmeticLaws := by
  intro word prev idx
  refine ⟨fun byte quotient hok => ?ok, fun hbyte => ?double, tStep_divZero.trans divisorOf_eq_zero_iff⟩
  case ok =>
    obtain ⟨hne, rfl, rfl⟩ := tStep_ok hok
    have hdivisor := two_le_divisorOf hne
    have hmixed := (mixedOf word idx).isLt
    rw [← mixedOf, BitVec.extractLsb'_toNat, Nat.shiftRight_zero, BitVec.toNat_udiv]
    refine ⟨Nat.div_mul_le_self .., ?_, ?_, rfl⟩
    · rw [Nat.mul_comm]
      exact Nat.lt_mul_div_succ _ (by omega)
    · have hhalf : (mixedOf word idx).toNat / (divisorOf prev).toNat ≤ (mixedOf word idx).toNat / 2 :=
        Nat.div_le_div_left hdivisor (by decide)
      omega
  case double =>
    rw [divisorOf_toNat]
    omega

end Sys2Proof.Machine

/-! What a command other than `INIT` does to the symbol counter (spec/10_state.md R24), to the output and the carried
state (R21, R22, R27, R35), and to the latched error (spec/60_exceptions.md R152, R153): it leaves both the carried
state and the error, or latches an error, or emits one byte. -/

namespace Sys2Proof.Machine

/-- R24: five more symbols, modulo 2^64. -/
theorem State.countGroup_pos_eq_ofNat (s : State) : s.countGroup.pos = BitVec.ofNat 64 (s.pos.toNat + 5) := by
  rw [State.countGroup_pos, BitVec.ofNat_add, BitVec.ofNat_toNat, BitVec.setWidth_eq, Config.groupSyms_eq]

/-- Settles O29: of what a command can do, only restarting and counting a group touch `pos`; an idle command is no
`INIT`, and a `GRP` only when `done = 1`. -/
theorem onlyGrpCountsSymbols : Obligations.OnlyGrpCountsSymbols := by
  intro i s t h
  obtain ⟨rfl, rfl⟩ | ⟨hi, hidle, rfl⟩ | ⟨w, rfl, -, -, rfl⟩ | ⟨s0, s1, s2, s3, s4, rfl, hopen, rfl⟩ |
    ⟨n, rfl, -, rfl⟩ := exec_cases h
  · rfl
  · cases i with
    | init => exact absurd rfl hi
    | grp s0 s1 s2 s3 s4 =>
      have hdone : t.done = true := hidle.resolve_right (by simp)
      exact (if_pos hdone).symm
    | win w => rfl
    | endMsg n => rfl
  · exact s.xformStep_pos w
  · simp only [hopen, State.countGroup_pos_eq_ofNat, State.groupEffect_pos, Bool.false_eq_true, if_false]
  · exact s.tailEffect_pos n

/-- R152: the kind that a command may latch over `old`: a division by zero over no error, a decode error over these two,
and an error of `END` over any. -/
def ErrKind.Supersedes (new old : ErrKind) : Prop :=
  (new = .divisionByZero ∧ old = .none) ∨
  ((new = .invalidByte ∨ new = .invalidChunk) ∧ old.isDecodeError = false) ∨
  (new = .invalidLength ∨ new = .illegalCommand)

/-- What latching leaves alone (R153): the output record and the carried state. -/
structure State.SameCarried (s t : State) : Prop where
  out : t.out = s.out
  prev : t.prev = s.prev
  idx : t.idx = s.idx
  lastq : t.lastq = s.lastq

/-- The three error fields (R26) as they were. -/
structure State.SameError (s t : State) : Prop where
  err : t.err = s.err
  errPos : t.errPos = s.errPos
  errByte : t.errByte = s.errByte

/-- One byte emitted, with the advance of the carried state (R104). -/
structure State.EmitsByte (s t : State) (b : Byte) : Prop where
  out : t.out = s.out ++ [b]
  prev : t.prev = widenByte b
  idx : t.idx = s.idx + 1#32
  lastq_low : t.lastq.extractLsb' 0 8 = b

/-- The three things a command other than `INIT` can do to the output, the carried state and the error. -/
inductive CommandEffect (s t : State) : Prop where
  | quiet (carried : s.SameCarried t) (error : s.SameError t)
  | latches (carried : s.SameCarried t) (still_open : s.done = false) (kind : t.err.Supersedes s.err)
  | emits (b : Byte) (emitted : s.EmitsByte t b) (error : s.SameError t) (still_open : s.done = false)
      (no_error : s.err = .none)

theorem CommandEffect.refl (s : State) : CommandEffect s s := .quiet ⟨rfl, rfl, rfl, rfl⟩ ⟨rfl, rfl, rfl⟩

theorem CommandEffect.raise {s : State} (hopen : s.done = false) {k : ErrKind} (hk : k.Supersedes s.err) (p : Word64)
    (b : Byte) : CommandEffect s (s.raise k p b) :=
  .latches ⟨rfl, rfl, rfl, rfl⟩ hopen hk

/-- R104: a transform step with no error latched. -/
theorem CommandEffect.xformStep {s : State} (hopen : s.done = false) (herr : s.err = .none) (w : Word64) :
    CommandEffect s (s.xformStep w) := by
  obtain ⟨-, heq⟩ | ⟨b, q, hstep, heq⟩ := s.xformStep_cases w <;> rw [heq]
  · exact .raise hopen (.inl ⟨rfl, herr⟩) ..
  · obtain ⟨-, -, hb⟩ := tStep_ok hstep
    exact .emits b ⟨rfl, rfl, rfl, hb.symm⟩ ⟨rfl, rfl, rfl⟩ hopen herr

/-- The Window assembler and the symbol counter are neither carried state nor error. -/
theorem CommandEffect.withAssembler {s t : State} (h : CommandEffect s t) (hold : Word32) (holdV : Bool)
    (pos : Word64) : CommandEffect s (t.withAssembler hold holdV pos) := by
  cases h with
  | quiet carried error => exact .quiet { carried with } { error with }
  | latches carried still_open kind => exact .latches { carried with } still_open kind
  | emits b emitted error still_open no_error => exact .emits b { emitted with } { error with } still_open no_error

theorem CommandEffect.countGroup {s t : State} (h : CommandEffect s t) : CommandEffect s t.countGroup :=
  h.withAssembler t.hold t.holdV _

theorem CommandEffect.assemble {s : State} (hopen : s.done = false) (herr : s.err = .none) (d : Word32) :
    CommandEffect s (s.assemble d) := by
  obtain ⟨-, heq⟩ | ⟨-, heq⟩ := s.assemble_cases d <;> rw [heq]
  · exact (CommandEffect.refl s).withAssembler d true s.pos
  · have hdrop : s.dropHold = s.withAssembler 0#32 false s.pos := rfl
    rw [hdrop, State.xformStep_withAssembler]
    exact (CommandEffect.xformStep hopen herr _).withAssembler ..

theorem CommandEffect.groupEffect {s : State} (hopen : s.done = false) (r : GroupResult) :
    CommandEffect s (s.groupEffect r) := by
  obtain ⟨-, heq⟩ | ⟨k, b, -, hfresh, heq⟩ | ⟨-, hfresh, heq⟩ | ⟨b0, b1, b2, b3, -, herr, heq⟩ :=
    s.groupEffect_cases r <;> rw [heq]
  · exact .refl s
  · exact .raise hopen (.inr (.inl ⟨.inl rfl, hfresh⟩)) ..
  · exact .raise hopen (.inr (.inl ⟨.inr rfl, hfresh⟩)) ..
  · exact .assemble hopen herr _

/-- Dropping the held group and closing the message change no carried state and no error. -/
theorem CommandEffect.endMessage {s : State} (hopen : s.done = false) (n : BitVec 3) :
    CommandEffect s (s.tailEffect n).dropHold.close := by
  obtain ⟨-, heq⟩ | ⟨-, -, heq⟩ | ⟨-, heq⟩ := s.tailEffect_cases n <;> rw [heq]
  · exact .latches ⟨rfl, rfl, rfl, rfl⟩ hopen (.inr (.inr (.inr rfl)))
  · exact .latches ⟨rfl, rfl, rfl, rfl⟩ hopen (.inr (.inr (.inl rfl)))
  · exact .quiet ⟨rfl, rfl, rfl, rfl⟩ ⟨rfl, rfl, rfl⟩

theorem exec_commandEffect {i : Instr} {s t : State} (hi : i ≠ .init) (h : exec i s = .next t) : CommandEffect s t := by
  obtain ⟨hinit, -⟩ | ⟨-, -, rfl⟩ | ⟨w, -, hopen, herr, rfl⟩ | ⟨_, _, _, _, _, -, hopen, rfl⟩ | ⟨n, -, hopen, rfl⟩ :=
    exec_cases h
  · exact absurd hinit hi
  · exact .refl _
  · exact .xformStep hopen herr w
  · exact (CommandEffect.groupEffect hopen _).countGroup
  · exact .endMessage hopen n

/-- Settles O28: the byte comes of the one effect that emits, and the other two leave the carried state. -/
theorem commandEmitsAtMostOneByte : Obligations.CommandEmitsAtMostOneByte := by
  intro i s t hi h
  cases exec_commandEffect hi h with
  | quiet carried => exact .inl ⟨carried.out, carried.prev, carried.idx, carried.lastq⟩
  | latches carried => exact .inl ⟨carried.out, carried.prev, carried.idx, carried.lastq⟩
  | emits b emitted error still_open no_error =>
    exact .inr ⟨b, emitted.out, emitted.prev, emitted.idx, emitted.lastq_low, no_error, error.err.trans no_error,
      still_open⟩

theorem State.SameError.not_changed {s t : State} (h : s.SameError t) :
    ¬(t.err ≠ s.err ∨ t.errPos ≠ s.errPos ∨ t.errByte ≠ s.errByte) := by
  simp [h.err, h.errPos, h.errByte]

/-- A command that changes an error field latches an error. -/
theorem exec_latches {i : Instr} {s t : State} (hi : i ≠ .init) (h : exec i s = .next t)
    (hchanged : t.err ≠ s.err ∨ t.errPos ≠ s.errPos ∨ t.errByte ≠ s.errByte) :
    s.SameCarried t ∧ s.done = false ∧ t.err.Supersedes s.err := by
  cases exec_commandEffect hi h with
  | quiet _ error => exact absurd hchanged error.not_changed
  | latches carried still_open kind => exact ⟨carried, still_open, kind⟩
  | emits _ _ error => exact absurd hchanged error.not_changed

/-- Settles O31: the effect that latches leaves the carried state. -/
theorem latchingLeavesTheCarriedState : Obligations.LatchingLeavesTheCarriedState := by
  intro i s t hi h hchanged
  obtain ⟨carried, -, -⟩ := exec_latches hi h hchanged
  exact ⟨carried.out, carried.prev, carried.idx, carried.lastq⟩

/-! Ranks (R152): R36 (d) and (e) leave an open message with no error, a division by zero or a decode error. -/

theorem MessageInv.err_of_open {s : State} (h : MessageInv s) (hopen : s.done = false) :
    s.err = .none ∨ s.err = .divisionByZero ∨ s.err = .invalidByte ∨ s.err = .invalidChunk := by
  have hraised := h.raised
  have hfinal := h.final
  cases herr : s.err <;> simp [herr, hopen] at hraised hfinal ⊢

theorem ErrKind.Supersedes.rank_lt {old new : ErrKind} (h : new.Supersedes old)
    (hold : old = .none ∨ old = .divisionByZero ∨ old = .invalidByte ∨ old = .invalidChunk) :
    ∃ m n : Nat, old.rank = some m ∧ new.rank = some n ∧ m < n := by
  obtain ⟨rfl, rfl⟩ | ⟨hdecode, hfresh⟩ | hend := h
  · exact ⟨0, 1, rfl, rfl, by decide⟩
  · have hnew : new.rank = some 2 := by obtain rfl | rfl := hdecode <;> rfl
    obtain rfl | rfl | rfl | rfl := hold
    · exact ⟨0, 2, rfl, hnew, by decide⟩
    · exact ⟨1, 2, rfl, hnew, by decide⟩
    · cases hfresh
    · cases hfresh
  · have hnew : ∃ n, new.rank = some n ∧ 3 ≤ n := by
      obtain rfl | rfl := hend
      · exact ⟨3, rfl, by decide⟩
      · exact ⟨4, rfl, by decide⟩
    have hrank : ∃ m, old.rank = some m ∧ m ≤ 2 := by
      obtain rfl | rfl | rfl | rfl := hold
      · exact ⟨0, rfl, by decide⟩
      · exact ⟨1, rfl, by decide⟩
      · exact ⟨2, rfl, by decide⟩
      · exact ⟨2, rfl, by decide⟩
    obtain ⟨m, hm, hm2⟩ := hrank
    obtain ⟨n, hn, hn3⟩ := hnew
    exact ⟨m, n, hm, hn, by omega⟩

/-- Settles O30: what a command latches supersedes the kind before, which in an open message has a rank below it. -/
theorem latchedErrorsOnlyRiseInRank : Obligations.LatchedErrorsOnlyRiseInRank := by
  refine ⟨⟨rfl, rfl, rfl, rfl, rfl, rfl⟩, fun i s t hs hi h hchanged => ?_⟩
  obtain ⟨-, still_open, kind⟩ := exec_latches hi h hchanged
  exact kind.rank_lt (hs.err_of_open still_open)

end Sys2Proof.Machine

/-! Runs on inputs that start no new message (spec/60_exceptions.md R154, spec/10_state.md R25). -/

namespace Sys2Proof.Machine

theorem decode_ne_init_of_not_start {w : CmdWord} (h : (Input.cmd w).startsMessage = false) : decode w ≠ .init :=
  of_decide_eq_false h

/-- What every command but `INIT` keeps, whatever the host has yet to send, is kept by every run on inputs that hold no
`INIT` and no reset. -/
theorem runSteps_keeps_of_no_start {P : State → Prop} (hinput : ∀ s inputs, P s → P { s with input := inputs })
    (hexec : ∀ i s t, i ≠ .init → P s → exec i s = .next t → P t) {n : Nat} {s t : State} (hs : P s)
    (hquiet : ∀ i ∈ s.input.take n, i.startsMessage = false) (h : runSteps n s = .next t) : P t := by
  induction n generalizing s with
  | zero =>
    cases h
    exact hs
  | succ n ih =>
    obtain ⟨u, hstep, hrun⟩ := runSteps_succ_next h
    have hinputs : u.input.take n = (s.input.take (n + 1)).tail := by
      rw [step_input hstep, List.tail_take_eq_take_tail, Nat.add_sub_cancel]
    have hrest : ∀ i ∈ u.input.take n, i.startsMessage = false := fun i hi =>
      hquiet i (List.mem_of_mem_tail (hinputs ▸ hi))
    refine ih ?_ hrest hrun
    obtain ⟨-, rfl⟩ | ⟨rest, hin, -⟩ | ⟨w, rest, hin, hcommand⟩ := step_cases hstep
    · exact hs
    · cases hquiet .rst (by simp [hin])
    · have hw : decode w ≠ .init := decode_ne_init_of_not_start (hquiet (.cmd w) (by simp [hin]))
      exact hexec _ _ _ hw (hinput s rest hs) hcommand

theorem ErrKind.Supersedes.ne_none {old new : ErrKind} (h : new.Supersedes old) : new ≠ .none := by
  obtain ⟨rfl, -⟩ | ⟨rfl | rfl, -⟩ | rfl | rfl := h <;> simp

/-- R154: no command but `INIT` clears an error. -/
theorem exec_keeps_error {i : Instr} {s t : State} (hi : i ≠ .init) (herr : s.err ≠ .none) (h : exec i s = .next t) :
    t.err ≠ .none := by
  cases exec_commandEffect hi h with
  | quiet _ error => rwa [error.err]
  | latches _ _ kind => exact kind.ne_none
  | emits _ _ _ _ no_error => exact absurd no_error herr

/-- Settles O32: that an error is latched is kept by every command but `INIT`. -/
theorem onlyInitOrResetClearsAnError : Obligations.OnlyInitOrResetClearsAnError :=
  fun _ _ _ herr hquiet hrun =>
    runSteps_keeps_of_no_start (P := fun s => s.err ≠ .none) (fun _ _ h => h) (fun _ _ _ => exec_keeps_error) herr
      hquiet hrun

/-- `t` is `s` but for what the host has yet to send. -/
def State.SameButInput (s t : State) : Prop := t = { s with input := t.input }

theorem State.SameButInput.refl (s : State) : s.SameButInput s := rfl

theorem State.SameButInput.withInput {s t : State} (h : s.SameButInput t) (inputs : List Input) :
    s.SameButInput { t with input := inputs } := by
  rw [State.SameButInput] at h ⊢
  rw [h]

theorem State.SameButInput.done_eq {s t : State} (h : s.SameButInput t) : t.done = s.done := by
  rw [State.SameButInput] at h
  rw [h]

/-- R122, over any number of steps. -/
theorem runSteps_of_done {n : Nat} {s t : State} (hdone : s.done = true)
    (hquiet : ∀ i ∈ s.input.take n, i.startsMessage = false) (h : runSteps n s = .next t) : s.SameButInput t := by
  refine runSteps_keeps_of_no_start (P := s.SameButInput) (fun _ inputs hu => hu.withInput inputs)
    (fun i u v hi hu hexec => ?_) (.refl s) hquiet h
  have hudone : u.done = true := hu.done_eq.trans hdone
  rw [exec_of_done hudone hi] at hexec
  cases hexec
  exact hu

/-- Settles O33: the run completes with the inputs after it still offered, and changes nothing else. -/
theorem closedMessageIsUndisturbed : Obligations.ClosedMessageIsUndisturbed := by
  intro n s hdone hquiet
  obtain ⟨t, hrun, hinput⟩ := runSteps_completes n s
  rw [hrun, runSteps_of_done hdone hquiet hrun, hinput]

end Sys2Proof.Machine

/-! The chaining of `Transform` and its first `m` Windows (spec/41_chained_transform.md R109): what the loop of R106
makes of some first Windows, and what the others add. -/

namespace Sys2Proof.Machine

theorem transform_ok_length {raw out : List Byte} (h : transform raw = .ok out) : out.length = raw.length / 8 :=
  (transformTruncationLaw raw).1 out h

theorem transform_take_ok_length {raw first : List Byte} {m : Nat} (hm : m ≤ raw.length / 8)
    (h : transform (raw.take (8 * m)) = .ok first) : first.length = m := by
  rw [transform_ok_length h, List.length_take]
  omega

/-- R106: the first error stands, whatever Windows follow. -/
theorem transformWords_append_of_err {prev idx : Word32} {out : List Byte} {ws : List Word64} {k : ErrKind} {i : Nat}
    {b : Byte} (h : transformWords prev idx out ws = .err k i b) (more : List Word64) :
    transformWords prev idx out (ws ++ more) = .err k i b := by
  fun_induction transformWords prev idx out ws with
  | case1 => cases h
  | case2 prev idx out w ws hstep => rw [← h, List.cons_append, transformWords_cons_of_divZero hstep]
  | case3 prev idx out w ws byte quotient hstep ih =>
    rw [List.cons_append, transformWords_cons_of_ok hstep]
    exact ih h

/-- R109: an error among the first `m` Windows is the error of the sequence. -/
theorem transform_of_take_err {raw : List Byte} {m : Nat} {k : ErrKind} {i : Nat} {b : Byte}
    (h : transform (raw.take (8 * m)) = .err k i b) : transform raw = .err k i b := by
  rw [transform, windows_take] at h
  rw [transform, ← List.take_append_drop m (windows raw)]
  exact transformWords_append_of_err h _

/-- R106: the loop adds to the output it has and changes none of it. -/
theorem transformWords_ok_extends {prev idx : Word32} {before out : List Byte} {ws : List Word64}
    (h : transformWords prev idx before ws = .ok out) : ∃ more, out = before ++ more := by
  fun_induction transformWords prev idx before ws with
  | case1 before =>
    cases h
    exact ⟨[], (List.append_nil _).symm⟩
  | case2 => cases h
  | case3 prev idx before w ws byte quotient hstep ih =>
    obtain ⟨more, hmore⟩ := ih h
    exact ⟨byte :: more, by rw [hmore, List.append_assoc, List.singleton_append]⟩

/-- R106: the index an error reports is that of one of the Windows, counted from `idx` modulo 2^32. -/
theorem transformWords_err_index {prev idx : Word32} {out : List Byte} {ws : List Word64} {k : ErrKind} {i : Nat}
    {b : Byte} (h : transformWords prev idx out ws = .err k i b) :
    ∃ j < ws.length, i = (idx.toNat + j) % 2 ^ 32 := by
  fun_induction transformWords prev idx out ws with
  | case1 => cases h
  | case2 prev idx =>
    cases h
    exact ⟨0, by simp, (Nat.mod_eq_of_lt idx.isLt).symm⟩
  | case3 prev idx out w ws byte quotient hstep ih =>
    obtain ⟨j, hj, hi⟩ := ih h
    rw [BitVec.toNat_add, BitVec.toNat_ofNat] at hi
    exact ⟨j + 1, by simpa using hj, by omega⟩

/-- R109: the first `m` Windows of a sequence that transforms give the first `m` bytes. -/
theorem transform_take_of_ok {raw out : List Byte} {m : Nat} (hm : m ≤ raw.length / 8) (h : transform raw = .ok out) :
    transform (raw.take (8 * m)) = .ok (out.take m) := by
  match htake : transform (raw.take (8 * m)) with
  | .err k i b =>
    rw [transform_of_take_err htake] at h
    cases h
  | .ok first =>
    rw [transform_of_take_ok htake] at h
    obtain ⟨more, rfl⟩ := transformWords_ok_extends h
    rw [← transform_take_ok_length hm htake, List.take_left]

/-- Settles O38: what the first `m` Windows answer decides. An error of theirs has an index below `m` and is that of
the sequence; after them an error has an index of `m` or more, fewer than 2^32 Windows in all. -/
theorem transformPrefixLaw : Obligations.TransformPrefixLaw := by
  intro raw m hbound hm
  have hcount : ((windows raw).take m).length = m := by
    rw [List.length_take, windows_length]
    omega
  refine ⟨fun out => transform_take_of_ok hm, fun k i b herr hi => ?before, fun k i b herr hi => ?after⟩
  case before =>
    match htake : transform (raw.take (8 * m)) with
    | .err k' i' b' => rw [← herr, transform_of_take_err htake]
    | .ok first =>
      rw [transform_of_take_ok htake, transform_take_ok_length hm htake] at herr
      obtain ⟨j, hj, hindex⟩ := transformWords_err_index herr
      rw [List.length_drop, windows_length] at hj
      rw [BitVec.toNat_ofNat] at hindex
      omega
  case after =>
    match htake : transform (raw.take (8 * m)) with
    | .err k' i' b' =>
      rw [transform_of_take_err htake] at herr
      cases herr
      rw [transform, windows_take] at htake
      obtain ⟨j, hj, hindex⟩ := transformWords_err_index htake
      rw [hcount] at hj
      rw [Config.idxInit_eq, BitVec.toNat_ofNat] at hindex
      omega
    | .ok first => exact ⟨first, rfl, transform_take_ok_length hm htake⟩

/-- R21: the value carried into Window `i`. -/
theorem carried_take {out : List Byte} {i : Nat} (hi : i ≤ out.length) :
    ((out.take i).getLast?.map widenByte).getD Config.prevInit =
      if i = 0 then 1#32 else (out.getD (i - 1) 0#8).setWidth 32 := by
  cases i with
  | zero => rfl
  | succ i =>
    have hlast : out[i]? = some out[i] := List.getElem?_eq_getElem hi
    simp [List.getLast?_take, List.getD_eq_getElem?_getD, hlast, widenByte]

/-- Settles O37: the loop reaches Window `i` with the first `i` bytes, and what it emits there stays. -/
theorem transformChainingLaw : Obligations.TransformChainingLaw := by
  intro raw out h i word hword
  obtain ⟨hi, hget⟩ := List.getElem?_eq_some_iff.mp hword
  have hlen : i < out.length := by rwa [transform_ok_length h, ← windows_length]
  have htake : (out.take i).length = i := by
    rw [List.length_take]
    omega
  have hfirst := transform_take_of_ok (m := i) (by rw [← windows_length]; exact hi.le) h
  rw [transform_of_take_ok hfirst, htake, carried_take hlen.le, List.drop_eq_getElem_cons hi, hget] at h
  match hstep : tStep word (if i = 0 then 1#32 else (out.getD (i - 1) 0#8).setWidth 32) (BitVec.ofNat 32 i) with
  | .divZero =>
    rw [transformWords_cons_of_divZero hstep] at h
    cases h
  | .ok byte quotient =>
    rw [transformWords_cons_of_ok hstep] at h
    obtain ⟨more, hout⟩ := transformWords_ok_extends h
    refine ⟨byte, quotient, ?_, rfl⟩
    rw [hout, List.append_assoc, List.getElem?_append_right htake.le, htake, Nat.sub_self]
    rfl

end Sys2Proof.Machine

/-! The order of errors in `Pipeline` (spec/43_pipeline_reference.md R136). -/

namespace Sys2Proof.Machine

/-- R86: groups that all decode make no error. -/
theorem decodeGroups_of_good {gs : List TextGroup} (h : ∀ g ∈ gs, ∃ b0 b1 b2 b3, g.decode = .ok b0 b1 b2 b3) (p : Nat)
    (raw : List Byte) : ∃ out, decodeGroups p raw gs = .ok out := by
  induction gs generalizing p raw with
  | nil => exact ⟨raw, rfl⟩
  | cons g gs ih =>
    obtain ⟨⟨b0, b1, b2, b3, hg⟩, hgs⟩ := List.forall_mem_cons.mp h
    rw [decodeGroups_cons_of_ok hg]
    exact ih hgs ..

/-- R86: the loop comes to the first group that fails, at position `5 g`, with the bytes of the groups before. -/
theorem decodeText_of_first_bad {text : List Byte} (hwhole : text.length % 5 = 0) {g : Nat} {bad : TextGroup}
    (hbad : (groups text)[g]? = some bad)
    (hgood : ∀ j < g, ∀ good, (groups text)[j]? = some good → ∃ b0 b1 b2 b3, good.decode = .ok b0 b1 b2 b3) :
    ∃ raw, decodeText text = decodeGroups (5 * g) raw (bad :: (groups text).drop (g + 1)) := by
  obtain ⟨hg, hget⟩ := List.getElem?_eq_some_iff.mp hbad
  have hbefore : ∀ x ∈ (groups text).take g, ∃ b0 b1 b2 b3, x.decode = .ok b0 b1 b2 b3 := fun x hx => by
    obtain ⟨j, hj, rfl⟩ := List.mem_take_iff_getElem.mp hx
    exact hgood j (by omega) _ (List.getElem?_eq_getElem _)
  obtain ⟨raw, hraw⟩ := decodeGroups_of_good hbefore 0 []
  have hcount : ((groups text).take g).length = g := by
    rw [List.length_take]
    omega
  have hsplit : groups text = (groups text).take g ++ bad :: (groups text).drop (g + 1) := by
    rw [← hget, ← List.drop_eq_getElem_cons hg, List.take_append_drop]
  refine ⟨raw, ?_⟩
  rw [decodeText_of_whole hwhole]
  conv_lhs => rw [hsplit]
  rw [decodeGroups_append_of_ok hraw, hcount, Nat.zero_add]

/-- Settles O40: the two tests of `Decode` in their order, then the transform. -/
theorem pipelineErrorPrecedence : Obligations.PipelineErrorPrecedence := by
  intro text
  refine ⟨fun hleft => pipeline_of_decode_err (decodeText_of_leftover hleft), fun hwhole g bad hbad hgood => ?_,
    fun _ => pipeline_of_decode_ok⟩
  obtain ⟨raw, hdec⟩ := decodeText_of_first_bad hwhole hbad hgood
  refine ⟨fun k b hfail => pipeline_of_decode_err ?_, fun hfail => pipeline_of_decode_err ?_⟩
  · rw [hdec, decodeGroups_cons_of_badByte hfail]
  · rw [hdec, decodeGroups_cons_of_badChunk hfail]

end Sys2Proof.Machine
